-- ==== Sys2Proof/Word.lean ====
section
/-! DEFINITION. The word types of the block: the byte of the input buffer, the instruction word, and the
text line of the output (spec/00_scope.md R5, R7, R8). -/

namespace Sys2Proof

/-- `Byte` of R8: one byte of the input buffer, BYTE_BITS = 8 (R5). -/
abbrev Byte := BitVec 8

/-- `U16` of R8: the instruction word, WORD_BITS = 16 (R5). -/
abbrev Word := BitVec 16

/-- `Line` of R8: "a list of `Char`", one rendered line with no terminator (R37). -/
abbrev Line := List Char

end Sys2Proof
end

