-- ==== Sys2Proof/Config.lean ====
section
/-! DEFINITION. The parameters of the block (spec/00_scope.md R5, R6): the fixed widths and counts, what an
unlisted byte of the input buffer stands for, and the host-side parameters that the spec leaves open. The spec
leaves no value of the block itself free, so there is no opaque constant. -/

namespace Sys2Proof.Config

/-- INSN_BYTES of R5 and R51: every instruction is two bytes. -/
def insnBytes : Nat := 2

/-- ROM_ENTRIES of R5. -/
def romEntries : Nat := 16

/-- NAME_CHARS of R5: characters in one register mnemonic. -/
def nameChars : Nat := 2

/-- LINE_CHARS of R6 and R108: characters in one rendered line. -/
def lineChars : Nat := 10

/-- What an offset of the buffer that `State.ibuf` does not list holds.
DESIGN CHOICE (log entry 2): a way of writing a buffer down, not a value of the hardware; the buffer of `n` bytes
lists exactly its bytes that differ from this one. -/
def unlistedByte : Byte := 0

/-- The host-side parameters that R6 leaves OPEN. They are arguments of the functions of Machine/HostSide.lean and
of nothing the block does. -/
structure HostParams where
  /-- LINE_TERM: what the host puts after each line (92_eei_decisions.md D10). -/
  lineTerm : Line
  /-- EXIT_CODE_FAIL: the exit code after a fault (D25). -/
  exitCodeFail : Nat
  /-- R6: "any non-zero value". -/
  exitCodeFail_ne_zero : exitCodeFail ≠ 0
  /-- DIAG_FORMAT (D27), its wording: the diagnostic the host makes of the code in FKIND, and of FWORD, FPOS and FIDX.
  Its destination, which R6 leaves open too, has no parameter (DESIGN CHOICE, log entry 11). -/
  diagFormat : BitVec 3 → Word → Nat → Nat → Line

end Sys2Proof.Config
end

