-- ==== Sys2Proof/Syntax.lean ====
section
/-! DEFINITION. The enumerations of spec/00_scope.md R8, the Instruction record of spec/10_state.md R11, the error
kinds of spec/60_exceptions.md R150, and `Instr`: one constructor for each of the ten rows of
spec/opcode_table.json. -/

namespace Sys2Proof

/-- `Opcode = {MOV}` (R8, R72). -/
inductive Opcode where
  | mov
deriving DecidableEq, Repr

/-- `Direction` (R8, R54): `toRegister` is D = 0 and makes REG the destination; `fromRegister` is D = 1. -/
inductive Direction where
  | toRegister
  | fromRegister
deriving DecidableEq, Repr

/-- `Mode` (R8, R56): `register` is MOD = 11, `memory` the three other values. -/
inductive Mode where
  | register
  | memory
deriving DecidableEq, Repr

/-- The Instruction record (R11): the transient value between the decoder and the renderer, not state (R24).
The selectors are natural numbers, so that the hand-made records of R110 with a selector above 7 can be written down
(DESIGN CHOICE, log entry 6);
`InstructionRecord.wf` is R11's own invariant that they are at most 7, and every record the decoder makes meets it. -/
structure InstructionRecord where
  opcode    : Opcode
  direction : Direction
  wide      : Bool
  mode      : Mode
  register1 : Nat
  register2 : Nat
deriving DecidableEq, Repr

/-- The kinds FKIND can hold (R16, R150); the reserved codes 6 and 7 have no value here. -/
inductive FaultKind where
  /-- Code 0: no fault. -/
  | noFault
  /-- Code 1, raised by the decoder (R151). -/
  | unknownOpcode
  /-- Code 2, raised by the ROM (R152). -/
  | invalidRegisterIndex
  /-- Code 3, raised by the renderer (R153). -/
  | unsupportedMode
  /-- Code 4, the host's, never set by the block (R154). -/
  | fileIO
  /-- Code 5, the host's, never set by the block (R154). -/
  | invalidUtf8
deriving DecidableEq, Repr

/-- `fault(k, info)` of R8 for the three faults the block can raise, each with the information its `raise` carries.
These are values the three sub-blocks return (R74); the sequencer turns one into the fault entry of R158. -/
inductive CoreFault where
  /-- `raise UnknownOpcode(w)` (R79). -/
  | unknownOpcode (w : Word)
  /-- `raise InvalidRegisterIndex(i)` (R90). -/
  | invalidRegisterIndex (i : Nat)
  /-- `raise UnsupportedMode` (R100). -/
  | unsupportedMode
deriving DecidableEq, Repr

/-- Why the byte decoder answers no instruction: fewer than the two bytes every instruction has (R51). The trailing
byte of an odd buffer is such a list, and belongs to no word (R33). -/
inductive DecodeError where
  | truncated
deriving DecidableEq, Repr

/-- One row of spec/opcode_table.json: a word `w` is in the row when `w &&& mask = pattern`. -/
structure TableRow where
  mask    : Word
  pattern : Word
deriving DecidableEq, Repr

/-- One constructor per row of spec/opcode_table.json, in the table's order. The MOV rows carry the four fields the
table gives them; an `(illegal)` row has no field and its constructor carries the whole word, which is what the fault
entry records (R82). DESIGN CHOICE, log entry 1. -/
inductive Instr where
  /-- `mov`, register mode, MOD = 11 (R80). -/
  | movRegister (direction : Direction) (wide : Bool) (register1 register2 : BitVec 3)
  /-- `mov`, memory mode, MOD = 00 (R81). -/
  | movMemory00 (direction : Direction) (wide : Bool) (register1 register2 : BitVec 3)
  /-- `mov`, memory mode, MOD = 01 (R81). -/
  | movMemory01 (direction : Direction) (wide : Bool) (register1 register2 : BitVec 3)
  /-- `mov`, memory mode, MOD = 10 (R81). -/
  | movMemory10 (direction : Direction) (wide : Bool) (register1 register2 : BitVec 3)
  /-- `(illegal)`: bits 15:10 differ from 100010 first at bit 15 (R82). -/
  | illegalBit15 (word : Word)
  /-- `(illegal)`: bits 15:10 differ from 100010 first at bit 14 (R82). -/
  | illegalBit14 (word : Word)
  /-- `(illegal)`: bits 15:10 differ from 100010 first at bit 13 (R82). -/
  | illegalBit13 (word : Word)
  /-- `(illegal)`: bits 15:10 differ from 100010 first at bit 12 (R82). -/
  | illegalBit12 (word : Word)
  /-- `(illegal)`: bits 15:10 differ from 100010 first at bit 11 (R82). -/
  | illegalBit11 (word : Word)
  /-- `(illegal)`: bits 15:10 differ from 100010 first at bit 10 (R82). -/
  | illegalBit10 (word : Word)
deriving DecidableEq, Repr

end Sys2Proof
end

