-- ==== Sys2Proof/WellFormed.lean ====
section
/-! DEFINITION. The opcode table's masks and patterns, and what makes a term well formed: an illegal word lies in the
row its constructor names (spec/opcode_table.json, spec/30_encoding.md R59), and a record's selectors are at most 7
(spec/10_state.md R11). -/

namespace Sys2Proof

/-- The row of spec/opcode_table.json that a constructor stands for: its `mask` and `match`. -/
def Instr.tableRow : Instr → TableRow
  | .movRegister _ _ _ _ => { mask := 0xFCC0, pattern := 0x88C0 }
  | .movMemory00 _ _ _ _ => { mask := 0xFCC0, pattern := 0x8800 }
  | .movMemory01 _ _ _ _ => { mask := 0xFCC0, pattern := 0x8840 }
  | .movMemory10 _ _ _ _ => { mask := 0xFCC0, pattern := 0x8880 }
  | .illegalBit15 _ => { mask := 0x8000, pattern := 0x0000 }
  | .illegalBit14 _ => { mask := 0xC000, pattern := 0xC000 }
  | .illegalBit13 _ => { mask := 0xE000, pattern := 0xA000 }
  | .illegalBit12 _ => { mask := 0xF000, pattern := 0x9000 }
  | .illegalBit11 _ => { mask := 0xF800, pattern := 0x8000 }
  | .illegalBit10 _ => { mask := 0xFC00, pattern := 0x8C00 }

/-- A word is in a row when its masked bits are the row's pattern. -/
def TableRow.holds (r : TableRow) (w : Word) : Bool :=
  w &&& r.mask == r.pattern

/-- The ten rows of spec/opcode_table.json, in its order. -/
def opcodeTable : List TableRow :=
  [{ mask := 0xFCC0, pattern := 0x88C0 }, { mask := 0xFCC0, pattern := 0x8800 },
   { mask := 0xFCC0, pattern := 0x8840 }, { mask := 0xFCC0, pattern := 0x8880 },
   { mask := 0x8000, pattern := 0x0000 }, { mask := 0xC000, pattern := 0xC000 },
   { mask := 0xE000, pattern := 0xA000 }, { mask := 0xF000, pattern := 0x9000 },
   { mask := 0xF800, pattern := 0x8000 }, { mask := 0xFC00, pattern := 0x8C00 }]

/-- A MOV term is well formed by its types (every selector, direction and width is encodable, R80, R81); an illegal
term is well formed when its word lies in its row. -/
def Instr.wf : Instr → Bool
  | .movRegister _ _ _ _ => true
  | .movMemory00 _ _ _ _ => true
  | .movMemory01 _ _ _ _ => true
  | .movMemory10 _ _ _ _ => true
  | .illegalBit15 w => (Instr.illegalBit15 w).tableRow.holds w
  | .illegalBit14 w => (Instr.illegalBit14 w).tableRow.holds w
  | .illegalBit13 w => (Instr.illegalBit13 w).tableRow.holds w
  | .illegalBit12 w => (Instr.illegalBit12 w).tableRow.holds w
  | .illegalBit11 w => (Instr.illegalBit11 w).tableRow.holds w
  | .illegalBit10 w => (Instr.illegalBit10 w).tableRow.holds w

/-- R11: "`register1` and `register2` ∈ [0,7]". -/
def InstructionRecord.wf (I : InstructionRecord) : Bool :=
  decide (I.register1 ≤ 7) && decide (I.register2 ≤ 7)

end Sys2Proof
end

