-- ==== Sys2Proof/Decode.lean ====
section
/-! DEFINITION. The instruction_decoder block (spec/30_encoding.md, spec/40_decoder.md): byte order, field extraction,
the opcode recogniser, the spec's function `Decode`, the decoder of words and of bytes into `Instr`, and the encoder
written from the same field layout. -/

namespace Sys2Proof

/-! ### Byte order (20_memory.md R31, R32, R42) -/

/-- R31: `(zext_16(b0) << 8) | zext_16(b1)`, the byte at the lower offset being the more significant half. -/
def wordOfBytes (b0 b1 : Byte) : Word :=
  (b0.setWidth 16 <<< 8) ||| b1.setWidth 16

/-- R32: the byte of `w` at the lower offset, `w[15:8]`. -/
def firstByte (w : Word) : Byte := w.extractLsb' 8 8

/-- R32: the byte of `w` at the higher offset, `w[7:0]`. -/
def secondByte (w : Word) : Byte := w.extractLsb' 0 8

/-! ### Fields (R50, R52): the six (offset, width) pairs -/

/-- R53: `op6 = w[15:10]`. -/
def opcodeField (w : Word) : BitVec 6 := w.extractLsb' 10 6

/-- R54: the D bit, `w[9]`. -/
def directionField (w : Word) : BitVec 1 := w.extractLsb' 9 1

/-- R55 and 90_conflicts.md C2: the W bit is bit 8. -/
def wideField (w : Word) : BitVec 1 := w.extractLsb' 8 1

/-- R56: `mod2 = w[7:6]`. -/
def modeField (w : Word) : BitVec 2 := w.extractLsb' 6 2

/-- R57: REG, `w[5:3]`. -/
def register1Field (w : Word) : BitVec 3 := w.extractLsb' 3 3

/-- R58: RM, `w[2:0]`. -/
def register2Field (w : Word) : BitVec 3 := w.extractLsb' 0 3

/-! ### Field values (R53 to R58) -/

/-- R53, R59: the one known opcode pattern. -/
def movPattern : BitVec 6 := 0b100010

/-- The opcode recogniser (R72): one entry, all 63 other values are not recognised. -/
def recognise (op6 : BitVec 6) : Option Opcode :=
  if op6 = movPattern then some .mov else none

/-- R54: 0 is ToRegister, 1 is FromRegister. This is the document's polarity (90_conflicts.md C1, D14). -/
def directionOf (d : BitVec 1) : Direction :=
  if d = 0 then .toRegister else .fromRegister

/-- R55: wide means the W bit is 1. -/
def wideOf (b : BitVec 1) : Bool := decide (b = 1)

/-- R56: 11 is Register, any other value is Memory. -/
def modeOf (mod2 : BitVec 2) : Mode :=
  if mod2 = 0b11 then .register else .memory

/-! ### The function `Decode` of R79 -/

/-- `Decode` (R79): the opcode test comes first and is the only thing that can fail. -/
def decodeRecord (w : Word) : Except CoreFault InstructionRecord :=
  match recognise (opcodeField w) with
  | none => .error (.unknownOpcode w)
  | some op => .ok
      { opcode := op
        direction := directionOf (directionField w)
        wide := wideOf (wideField w)
        mode := modeOf (modeField w)
        register1 := (register1Field w).toNat
        register2 := (register2Field w).toNat }

/-! ### The decoder into the rows of the opcode table -/

/-- The four MOV rows of the table, told apart by MOD (R59). -/
def decodeMov (w : Word) : Instr :=
  match modeField w with
  | 0b11#2 => .movRegister (directionOf (directionField w)) (wideOf (wideField w)) (register1Field w) (register2Field w)
  | 0b00#2 => .movMemory00 (directionOf (directionField w)) (wideOf (wideField w)) (register1Field w) (register2Field w)
  | 0b01#2 => .movMemory01 (directionOf (directionField w)) (wideOf (wideField w)) (register1Field w) (register2Field w)
  | _ => .movMemory10 (directionOf (directionField w)) (wideOf (wideField w)) (register1Field w) (register2Field w)

/-- The six `(illegal)` rows: the first bit, from bit 15 down, at which `w[15:10]` differs from 100010 (R59). -/
def decodeIllegal (w : Word) : Instr :=
  if w.getLsbD 15 = false then .illegalBit15 w
  else if w.getLsbD 14 = true then .illegalBit14 w
  else if w.getLsbD 13 = true then .illegalBit13 w
  else if w.getLsbD 12 = true then .illegalBit12 w
  else if w.getLsbD 11 = false then .illegalBit11 w
  else .illegalBit10 w

/-- The row of the table a word belongs to, with its fields: total on all 65536 words (R73). -/
def decodeWord (w : Word) : Instr :=
  match recognise (opcodeField w) with
  | some .mov => decodeMov w
  | none => decodeIllegal w

/-- The byte decoder: the first two bytes make one instruction, whatever they hold (R51, R62), and the rest is left. -/
def decode : List Byte → Except DecodeError (Instr × List Byte)
  | b0 :: b1 :: rest => .ok (decodeWord (wordOfBytes b0 b1), rest)
  | _ => .error .truncated

/-! ### The encoder, from the same layout (R50) -/

/-- The D bit of a direction (R54). -/
def Direction.bit : Direction → BitVec 1
  | .toRegister => 0
  | .fromRegister => 1

/-- `100010 d w mm rrr mmm` (R50, R80, R81). -/
def encodeMov (d : Direction) (wide : Bool) (mod2 : BitVec 2) (r1 r2 : BitVec 3) : Word :=
  movPattern ++ d.bit ++ BitVec.ofBool wide ++ mod2 ++ r1 ++ r2

/-- The word of an instruction. -/
def encode : Instr → Word
  | .movRegister d w r1 r2 => encodeMov d w 0b11 r1 r2
  | .movMemory00 d w r1 r2 => encodeMov d w 0b00 r1 r2
  | .movMemory01 d w r1 r2 => encodeMov d w 0b01 r1 r2
  | .movMemory10 d w r1 r2 => encodeMov d w 0b10 r1 r2
  | .illegalBit15 w => w
  | .illegalBit14 w => w
  | .illegalBit13 w => w
  | .illegalBit12 w => w
  | .illegalBit11 w => w
  | .illegalBit10 w => w

/-- The two bytes of a word in the order of the input buffer (R32). -/
def wordBytes (w : Word) : List Byte := [firstByte w, secondByte w]

/-- The record the decoder makes of a MOV with these fields (R11, R79). -/
def movRecord (d : Direction) (wide : Bool) (mode : Mode) (r1 r2 : BitVec 3) : InstructionRecord :=
  { opcode := .mov, direction := d, wide := wide, mode := mode, register1 := r1.toNat, register2 := r2.toNat }

/-- What `Decode` gives for an instruction of the table: a record for the MOV rows, where the three memory rows
become indistinguishable (R11, R81), and UnknownOpcode for the illegal rows (R82). -/
def Instr.record : Instr → Except CoreFault InstructionRecord
  | .movRegister d w r1 r2 => .ok (movRecord d w .register r1 r2)
  | .movMemory00 d w r1 r2 => .ok (movRecord d w .memory r1 r2)
  | .movMemory01 d w r1 r2 => .ok (movRecord d w .memory r1 r2)
  | .movMemory10 d w r1 r2 => .ok (movRecord d w .memory r1 r2)
  | .illegalBit15 w => .error (.unknownOpcode w)
  | .illegalBit14 w => .error (.unknownOpcode w)
  | .illegalBit13 w => .error (.unknownOpcode w)
  | .illegalBit12 w => .error (.unknownOpcode w)
  | .illegalBit11 w => .error (.unknownOpcode w)
  | .illegalBit10 w => .error (.unknownOpcode w)

/-- The word that the opcode table's numbering makes of `nbits` bits: bit 0 is the word's bit 0, the bits from `nbits`
up are 0, and bits above 15 would belong to a second word that no instruction of this block has (R51). -/
def tableWord (nbits w : Nat) : Word := BitVec.ofNat 16 (w % 2 ^ nbits)

/-- The instruction the byte decoder reads from a word numbered as spec/opcode_table.json numbers it. -/
def decodeTableWord (nbits w : Nat) : Option Instr :=
  match decode (wordBytes (tableWord nbits w)) with
  | .ok (i, _) => some i
  | .error _ => none

end Sys2Proof
end

