-- ==== Sys2Proof/Machine/State.lean ====
section
/-! DEFINITION. The state of the block: the seven items of spec/10_state.md R10, and the two inputs of a run, IBUF and
N (R19), which the spec keeps apart from the state but a step must read. All of it is plain data. -/

namespace Sys2Proof.Machine

/-- `ST`, the run status (R15). The reserved value 3 does not exist in a model. -/
inductive Status where
  /-- Reset value: words remain, or the end has not yet been noticed. -/
  | running
  /-- Every whole word was decoded and rendered; final. -/
  | done
  /-- A fault ended the run; final. -/
  | fault
deriving DecidableEq, Repr

/-- The contents of the input buffer as (offset, byte) pairs in one canonical form (`Memory.wf`): offsets strictly
rising, and no pair whose byte is `Config.unlistedByte`, which an unlisted offset holds. -/
abbrev Memory := List Host.Cell

structure State where
  /-- `wp` (R13): the word pointer, the block's program counter; it counts whole words. -/
  wp    : Nat
  /-- `ST` (R15). -/
  st    : Status
  /-- `FKIND` (R16). -/
  fkind : FaultKind
  /-- `FWORD` (R17): meaningful only when `ST = Fault`. -/
  fword : Word
  /-- `FPOS` (R17): meaningful only when `ST = Fault`. -/
  fpos  : Nat
  /-- `FIDX` (R18): meaningful only when `ST = Fault` and `FKIND = 2`. -/
  fidx  : Nat
  /-- `OUT` (R20): the lines emitted so far, oldest first. -/
  out   : List Line
  /-- `IBUF` (R19): an input of the run, constant during it (R41). -/
  ibuf  : Memory
  /-- `N` (R19): the length of the input buffer in bytes, constant during a run. -/
  n     : Nat
deriving DecidableEq, Repr

/-- Why `step` answers no next state. None of these is a fault of the spec's list: those (R150) are states with
`ST = Fault`, reached by a step (R158).
DESIGN CHOICE, log entry 5. -/
inductive Fault where
  /-- Raised by `step` in `ST = Done`: R120, "the machine has no step". Safe: the machine stops where the spec's stops. -/
  | runDone
  /-- Raised by `step` in `ST = Fault`: R120, "the machine has no step". Safe, as above. -/
  | runFaulted
  /-- Raised by `step` when `wp > NW`: the offsets of the fetch are outside IBUF (R19). No run reaches it (R126). Safe:
  the spec describes no behaviour there. -/
  | fetchOutsideBuffer
deriving DecidableEq, Repr

/-- Why the model gives an instruction no meaning. -/
inductive Refusal where
  /-- Raised by an arm of `exec` whose instruction has no meaning yet; no arm raises it now. Safe. -/
  | notModelled (mnemonic : String)
deriving DecidableEq, Repr

/-- The state right after reset (R23, R180), with the empty input buffer. Reset touches neither IBUF nor N (R182): they
are the host's, and the buffer here is the one with nothing supplied (DESIGN CHOICE, log entry 3). -/
def State.reset : State where
  wp    := 0
  st    := .running
  fkind := .noFault
  fword := 0
  fpos  := 0
  fidx  := 0
  out   := []
  ibuf  := []
  n     := 0

end Sys2Proof.Machine
end

