-- ==== Sys2Proof/Machine/Ops.lean ====
section
/-! DEFINITION. The named operations over the state: the input buffer and its fetch (spec/20_memory.md), the four
writes of the sequencer (Emit, advance, Done, and the fault entry of spec/60_exceptions.md R158), reset, and the host's
supplying of a buffer (spec/70_reset_and_hazards.md R180 to R184). -/

namespace Sys2Proof.Machine

/-! ### The input buffer -/

/-- The byte a buffer's list of pairs gives an offset. -/
def Memory.read : Memory → Nat → Byte
  | [], _ => Config.unlistedByte
  | (k, b) :: m, a => if k = a then b else Memory.read m a

/-- Put one byte at an offset, keeping the canonical form. Only the host writes IBUF: the block never does (R41). -/
def Memory.write : Memory → Nat → Byte → Memory
  | [], a, v => if v = Config.unlistedByte then [] else [(a, v)]
  | (k, b) :: m, a, v =>
    if a < k then (if v = Config.unlistedByte then (k, b) :: m else (a, v) :: (k, b) :: m)
    else if a = k then (if v = Config.unlistedByte then m else (a, v) :: m)
    else (k, b) :: Memory.write m a v

/-- Offsets strictly rising from `lo`, and no listed byte equal to the unlisted one. -/
def Memory.wfFrom : Nat → Memory → Bool
  | _, [] => true
  | lo, (k, b) :: m => decide (lo ≤ k) && !(b == Config.unlistedByte) && Memory.wfFrom (k + 1) m

/-- The canonical form of a buffer. -/
def Memory.wf (m : Memory) : Bool := Memory.wfFrom 0 m

/-- Every listed offset is below `n`. -/
def Memory.below (m : Memory) (n : Nat) : Bool := m.all fun c => decide (c.1 < n)

/-- IBUF is in canonical form and lists no offset outside the buffer. -/
def State.wf (s : State) : Bool := Memory.wf s.ibuf && Memory.below s.ibuf s.n

/-- The canonical pairs of the bytes `bs` at the offsets from `a` on. -/
def Memory.ofBytesFrom : Nat → List Byte → Memory
  | _, [] => []
  | a, b :: bs =>
    if b = Config.unlistedByte then Memory.ofBytesFrom (a + 1) bs else (a, b) :: Memory.ofBytesFrom (a + 1) bs

/-- `IBUF[j]` (R8, R19): the buffer has the offsets 0 to N-1 and no other. -/
def readByte (s : State) (j : Nat) : Option Byte :=
  if j < s.n then some (Memory.read s.ibuf j) else none

/-- `MemRead(addr, n)` (R8): `n` consecutive bytes starting at an offset, all of which must exist. -/
def memRead (s : State) (addr : Nat) : Nat → Option (List Byte)
  | 0 => some []
  | k + 1 =>
    match readByte s addr, memRead s (addr + 1) k with
    | some b, some bs => some (b :: bs)
    | _, _ => none

/-- `NW = floor(N / 2)` (R33): an odd trailing byte belongs to no word. -/
def wordCount (s : State) : Nat := s.n / 2

/-- The word at position `p` (R31): the two bytes at the even offset `2*p`, the first in the upper half. -/
def fetchAt (s : State) (p : Nat) : Option Word :=
  match memRead s (2 * p) 2 with
  | some [b0, b1] => some (wordOfBytes b0 b1)
  | _ => none

/-- `fetch(wp)` of R121. -/
def fetch (s : State) : Option Word := fetchAt s s.wp

/-! ### The writes of the sequencer -/

/-- `Emit(line)` (R37): append one line at the end of OUT. -/
def emit (line : Line) (s : State) : State := { s with out := s.out ++ [line] }

/-- R122: `wp <- wp + 1`, the only way `wp` changes during a run. -/
def advance (s : State) : State := { s with wp := s.wp + 1 }

/-- R123: the end of the input sets `ST <- Done` and changes nothing else. -/
def finish (s : State) : State := { s with st := .done }

/-- The kind of a fault (R150). -/
def CoreFault.kind : CoreFault → FaultKind
  | .unknownOpcode _ => .unknownOpcode
  | .invalidRegisterIndex _ => .invalidRegisterIndex
  | .unsupportedMode => .unsupportedMode

/-- What FIDX holds after a fault: the index of InvalidRegisterIndex, otherwise unchanged (R158). -/
def faultIndex (f : CoreFault) (old : Nat) : Nat :=
  match f with
  | .invalidRegisterIndex i => i
  | .unknownOpcode _ => old
  | .unsupportedMode => old

/-- TAKING AN EXCEPTION, the fault entry of R158 and the `Abort` of R124, for a fault raised while the word `w` is
processed at position `wp`: the record is written, OUT and `wp` stay, and control goes nowhere. It is the whole policy
ON_ERROR = Abort (R155, D15). There is no return beside it: "There is no return-from-trap instruction" (R159), and only
`applyReset` leaves `ST = Fault`. -/
def abort (f : CoreFault) (w : Word) (s : State) : State :=
  { s with
    st := .fault
    fkind := CoreFault.kind f
    fword := w
    fpos := s.wp
    fidx := faultIndex f s.fidx }

/-! ### Reset and the host's supplying of the buffer -/

/-- Reset (R180): the seven items take their reset values; IBUF and N are not touched (R182). -/
def applyReset (s : State) : State :=
  { s with wp := 0, st := .running, fkind := .noFault, fword := 0, fpos := 0, fidx := 0, out := [] }

/-- The host puts the whole input in IBUF and its length in N (R184). -/
def supply (bytes : List Byte) (s : State) : State :=
  { s with ibuf := Memory.ofBytesFrom 0 bytes, n := bytes.length }

/-- The state a run starts from (R125, R184): the buffer supplied, then reset applied. -/
def startRun (bytes : List Byte) : State := applyReset (supply bytes State.reset)

/-- The word `w` stored at the word pointer, inside a buffer long enough to hold it, with `ST = Running`, so that the
next step fetches it (DESIGN CHOICE, log entry 4). -/
def placeWord (w : Word) (s : State) : State :=
  { s with
    st := .running
    ibuf := Memory.write (Memory.write s.ibuf (2 * s.wp) (firstByte w)) (2 * s.wp + 1) (secondByte w)
    n := max s.n (2 * s.wp + 2) }

end Sys2Proof.Machine
end

