-- ==== Sys2Proof/Machine/Operands.lean ====
section
/-! DEFINITION. The operand forms. The instruction set has one: two registers named by REG and RM, put in
destination-first order by the direction (spec/42_renderer.md R102). There is no memory, immediate or displacement
operand (spec/30_encoding.md R66). -/

namespace Sys2Proof.Machine

/-- `(first, second)` of R100 and R102: the destination is first. -/
def operandOrder (I : InstructionRecord) : Nat × Nat :=
  match I.direction with
  | .toRegister => (I.register1, I.register2)
  | .fromRegister => (I.register2, I.register1)

end Sys2Proof.Machine
end

