-- ==== Sys2Proof/Machine/Rom.lean ====
section
/-! DEFINITION. The register_name_lookup_rom block (spec/41_register_name_rom.md): the two columns of names as data,
the function `Name`, and the ROM's address and data layout (R92). -/

namespace Sys2Proof.Machine

/-- WIDE_NAMES of R90: index order, "not 'fixed.'" (R93). -/
def wideNames : List Line :=
  [['a', 'x'], ['c', 'x'], ['d', 'x'], ['b', 'x'], ['s', 'p'], ['b', 'p'], ['s', 'i'], ['d', 'i']]

/-- NARROW_NAMES of R90. -/
def narrowNames : List Line :=
  [['a', 'l'], ['c', 'l'], ['d', 'l'], ['b', 'l'], ['a', 'h'], ['c', 'h'], ['d', 'h'], ['b', 'h']]

/-- `Name(i, wide)` (R90): the index is a natural number and is not truncated; an index that the table does not have
raises InvalidRegisterIndex. -/
def name (i : Nat) (wide : Bool) : Except CoreFault Line :=
  match (if wide then wideNames else narrowNames)[i]? with
  | some n => .ok n
  | none => .error (.invalidRegisterIndex i)

/-- The ROM address `{wide, sel[2:0]}` (R92). -/
def romAddress (wide : Bool) (sel : BitVec 3) : BitVec 4 := BitVec.ofBool wide ++ sel

/-- The ROM's sixteen data words (R92), the first character in the upper byte. -/
def romContents : List (BitVec 16) :=
  [0x616C, 0x636C, 0x646C, 0x626C, 0x6168, 0x6368, 0x6468, 0x6268,
   0x6178, 0x6378, 0x6478, 0x6278, 0x7370, 0x6270, 0x7369, 0x6469]

/-- `ROM[a]` (R8, R92). -/
def romRead (a : BitVec 4) : BitVec 16 := romContents.getD a.toNat 0

/-- The 8-bit code of a character of the output (R107, D9): ASCII, bit 7 zero. The codes are
PRESUMED: the spec supplies them from general knowledge (log entry 7). -/
def charCode (c : Char) : BitVec 8 := BitVec.ofNat 8 c.toNat

end Sys2Proof.Machine
end

