-- ==== Sys2Proof/Machine/Renderer.lean ====
section
/-! DEFINITION. The instruction_renderer block (spec/42_renderer.md): the mnemonic, the format of a line, and the
function `Render`. -/

namespace Sys2Proof.Machine

/-- `Mnemonic` of R105. -/
def mnemonic : Opcode → Line
  | .mov => ['m', 'o', 'v']

/-- R104: mnemonic, space, first name, comma, space, second name, and nothing else. -/
def formatLine (op : Opcode) (n1 n2 : Line) : Line :=
  mnemonic op ++ [' '] ++ n1 ++ [',', ' '] ++ n2

/-- `Render(I)` (R100): the mode test comes first, then the first operand's lookup, then the second's (R110); both use
the record's one `wide` (R103). -/
def render (I : InstructionRecord) : Except CoreFault Line :=
  match I.mode with
  | .memory => .error .unsupportedMode
  | .register =>
    match name (operandOrder I).1 I.wide with
    | .error f => .error f
    | .ok n1 =>
      match name (operandOrder I).2 I.wide with
      | .error f => .error f
      | .ok n2 => .ok (formatLine I.opcode n1 n2)

/-- What the renderer makes of the decoder's answer: a word the decoder turned away never reaches it (R82, R157). -/
def renderDecoded : Except CoreFault InstructionRecord → Except CoreFault Line
  | .error f => .error f
  | .ok I => render I

/-- `r(k)` of R127 for a word: `Decode` followed by `Render`. -/
def wordOutcome (w : Word) : Except CoreFault Line := renderDecoded (decodeRecord w)

end Sys2Proof.Machine
end

