-- ==== Sys2Proof/Machine/Sequencer.lean ====
section
/-! DEFINITION. The sequencer around the three sub-blocks (spec/43_pipeline_step.md): what it does with a record, what
it does with a word the decoder turned away, and the frame of a step. -/

namespace Sys2Proof.Machine

/-- The end of R121 for the word `w`: a line is emitted and `wp` advances, a fault aborts the run. -/
def conclude (r : Except CoreFault Line) (w : Word) (s : State) : Host.Outcome State Fault Refusal :=
  match r with
  | .ok line => .next (advance (emit line s))
  | .error f => .next (abort f w s)

/-- The part of R121 after `Decode` answered `ok(I)` for the word `w`: render, then conclude. -/
def processRecord (w : Word) (I : InstructionRecord) (s : State) : Host.Outcome State Fault Refusal :=
  conclude (render I) w s

/-- The part of R121 after `Decode` raised UnknownOpcode for the word `w` (R82). -/
def processUnknown (w : Word) (s : State) : Host.Outcome State Fault Refusal :=
  conclude (.error (.unknownOpcode w)) w s

/-- The frame of a step (R120, R121, R123): no step unless Running; Done when `wp = NW`; otherwise the fetched word is
processed. -/
def stepFrame (process : Word → State → Host.Outcome State Fault Refusal) (s : State) :
    Host.Outcome State Fault Refusal :=
  match s.st with
  | .done => .fault .runDone
  | .fault => .fault .runFaulted
  | .running =>
    if s.wp = wordCount s then .next (finish s)
    else
      match fetch s with
      | some w => process w s
      | none => .fault .fetchOutsideBuffer

/-- The step of R121 written with the spec's own functions `Decode` and `Render`, and no opcode table. `step` is the
same machine run through `exec`. -/
def specStep (s : State) : Host.Outcome State Fault Refusal :=
  stepFrame (fun w s => conclude (wordOutcome w) w s) s

end Sys2Proof.Machine
end

