-- ==== Sys2Proof/Machine/Illegal.lean ====
section
/-! DEFINITION. The meanings of the six `(illegal)` rows (spec/40_decoder.md R82): `Decode` raises UnknownOpcode and
the sequencer takes the fault entry; the renderer and the ROM are not used. -/

namespace Sys2Proof.Machine

/-- R82, first difference from 100010 at bit 15. -/
def execIllegalBit15 (w : Word) (s : State) : Host.Outcome State Fault Refusal := processUnknown w s

/-- R82, first difference from 100010 at bit 14. -/
def execIllegalBit14 (w : Word) (s : State) : Host.Outcome State Fault Refusal := processUnknown w s

/-- R82, first difference from 100010 at bit 13. -/
def execIllegalBit13 (w : Word) (s : State) : Host.Outcome State Fault Refusal := processUnknown w s

/-- R82, first difference from 100010 at bit 12. -/
def execIllegalBit12 (w : Word) (s : State) : Host.Outcome State Fault Refusal := processUnknown w s

/-- R82, first difference from 100010 at bit 11. -/
def execIllegalBit11 (w : Word) (s : State) : Host.Outcome State Fault Refusal := processUnknown w s

/-- R82, first difference from 100010 at bit 10. -/
def execIllegalBit10 (w : Word) (s : State) : Host.Outcome State Fault Refusal := processUnknown w s

end Sys2Proof.Machine
end

