-- ==== Sys2Proof/Machine/Mov.lean ====
section
/-! DEFINITION. The meanings of the four `mov` rows (spec/40_decoder.md R80, R81). "The 'execution' of an instruction
by this block is: decode it, render it, emit the line. Nothing else." No 8086 register is written (R4, R12). -/

namespace Sys2Proof.Machine

/-- MOV, register mode (R80): one line is emitted and `wp` advances. -/
def execMovRegister (d : Direction) (w : Bool) (r1 r2 : BitVec 3) (s : State) : Host.Outcome State Fault Refusal :=
  processRecord (encodeMov d w 0b11 r1 r2) (movRecord d w .register r1 r2) s

/-- MOV, memory mode with MOD = 00 (R81): the word decodes and the renderer raises UnsupportedMode. -/
def execMovMemory00 (d : Direction) (w : Bool) (r1 r2 : BitVec 3) (s : State) : Host.Outcome State Fault Refusal :=
  processRecord (encodeMov d w 0b00 r1 r2) (movRecord d w .memory r1 r2) s

/-- MOV, memory mode with MOD = 01 (R81). No displacement byte is consumed (R51). -/
def execMovMemory01 (d : Direction) (w : Bool) (r1 r2 : BitVec 3) (s : State) : Host.Outcome State Fault Refusal :=
  processRecord (encodeMov d w 0b01 r1 r2) (movRecord d w .memory r1 r2) s

/-- MOV, memory mode with MOD = 10 (R81). -/
def execMovMemory10 (d : Direction) (w : Bool) (r1 r2 : BitVec 3) (s : State) : Host.Outcome State Fault Refusal :=
  processRecord (encodeMov d w 0b10 r1 r2) (movRecord d w .memory r1 r2) s

end Sys2Proof.Machine
end

