-- ==== Sys2Proof/Machine/Dispatch.lean ====
section
/-! DEFINITION. `exec`: one arm per constructor of `Instr`, each one direct call of that row's meaning. -/

namespace Sys2Proof.Machine

def exec (i : Instr) (s : State) : Host.Outcome State Fault Refusal :=
  match i with
  | .movRegister d w r1 r2 => Sys2Proof.Machine.execMovRegister d w r1 r2 s
  | .movMemory00 d w r1 r2 => Sys2Proof.Machine.execMovMemory00 d w r1 r2 s
  | .movMemory01 d w r1 r2 => Sys2Proof.Machine.execMovMemory01 d w r1 r2 s
  | .movMemory10 d w r1 r2 => Sys2Proof.Machine.execMovMemory10 d w r1 r2 s
  | .illegalBit15 w => Sys2Proof.Machine.execIllegalBit15 w s
  | .illegalBit14 w => Sys2Proof.Machine.execIllegalBit14 w s
  | .illegalBit13 w => Sys2Proof.Machine.execIllegalBit13 w s
  | .illegalBit12 w => Sys2Proof.Machine.execIllegalBit12 w s
  | .illegalBit11 w => Sys2Proof.Machine.execIllegalBit11 w s
  | .illegalBit10 w => Sys2Proof.Machine.execIllegalBit10 w s

end Sys2Proof.Machine
end

