-- ==== Sys2Proof/Machine/Step.lean ====
section
/-! DEFINITION. The step of spec/43_pipeline_step.md R121, run through `exec`, and the host's way to place one word
where the next step fetches it. -/

namespace Sys2Proof.Machine

/-- One step (R121): the sequencer's frame, with the fetched word decoded into its row and that row's meaning run. -/
def step (s : State) : Host.Outcome State Fault Refusal :=
  stepFrame (fun w s => exec (decodeWord w) s) s

/-- `s` with the instruction of the opcode table's bits `w` stored at the word pointer (log entry 4). -/
def State.withFetchWord (s : State) (nbits w : Nat) : State := placeWord (tableWord nbits w) s

end Sys2Proof.Machine
end

