-- ==== Sys2Proof/Machine/BitPacker.lean ====
section
/-! DEFINITION. BitPacker, the companion utility outside the hardware (spec/44_bitpacker_companion.md R140 to R145). No
step calls it; it is the way the spec's test inputs are written. -/

namespace Sys2Proof.Machine

/-- R140: the bit a character stands for; every other character is skipped. -/
def packBit (c : Char) : Option Bool :=
  if c = '0' then some false else if c = '1' then some true else none

/-- The loop of R141 with its accumulator `acc`, `n` bits of it filled; 1 to 7 leftover bits are dropped (R142). -/
def packFrom : List Char → Byte → Nat → List Byte
  | [], _, _ => []
  | c :: cs, acc, n =>
    match packBit c with
    | none => packFrom cs acc n
    | some b =>
      let acc' := acc <<< 1 ||| (BitVec.ofBool b).setWidth 8
      if n = 7 then acc' :: packFrom cs 0 0 else packFrom cs acc' (n + 1)

/-- `pack(text)` (R140, R141). -/
def pack (text : List Char) : List Byte := packFrom text 0 0

/-- The recognised bits of a text, in encounter order (R142's "recognized-bit subsequence"). -/
def packBits (text : List Char) : List Bool := text.filterMap packBit

end Sys2Proof.Machine
end

