-- ==== Sys2Proof/Machine/Flags.lean ====
section
/-! DEFINITION. The block has no status flags, condition codes or predicates (spec/10_state.md R14), so there is no
flag computation. What the host reads as numbers are the codes of ST (R15) and of FKIND (R16, spec/60_exceptions.md
R150). -/

namespace Sys2Proof.Machine

/-- The 2-bit value of ST (R15); 3 is reserved and never produced. -/
def Status.code : Status → BitVec 2
  | .running => 0
  | .done => 1
  | .fault => 2

/-- The 3-bit value of FKIND (R16, R150); 6 and 7 are reserved and never produced. -/
def faultCode : FaultKind → BitVec 3
  | .noFault => 0
  | .unknownOpcode => 1
  | .invalidRegisterIndex => 2
  | .unsupportedMode => 3
  | .fileIO => 4
  | .invalidUtf8 => 5

end Sys2Proof.Machine
end

