-- ==== Sys2Proof/Machine/HostSide.lean ====
section
/-! DEFINITION. What the host gives the block before a run and makes of the state after it (spec/60_exceptions.md R154,
spec/70_reset_and_hazards.md R184, R185). None of it is the block: no step calls it, and its parameters are arguments
(`Config.HostParams`; DESIGN CHOICE, log entry 11). -/

namespace Sys2Proof.Machine

/-- How the host's attempt to start a run ends (R154, R184). -/
inductive HostStart where
  /-- FileIO: "there is no buffer and no run starts". -/
  | noRun (kind : FaultKind)
  /-- The buffer is supplied and reset applied. -/
  | started (s : State)
deriving DecidableEq, Repr

/-- The host reads its input, whole, or fails to (R154, R184). -/
def hostStart : Option (List Byte) → HostStart
  | none => .noRun .fileIO
  | some bytes => .started (startRun bytes)

/-- How the host's process ends after a run (R185). -/
inductive HostExit where
  | normal
  | failure (code : Nat)
deriving DecidableEq, Repr

/-- R185: normal after Done, the non-zero EXIT_CODE_FAIL after Fault, nothing while the run goes on. -/
def hostExit (p : Config.HostParams) (s : State) : Option HostExit :=
  match s.st with
  | .running => none
  | .done => some .normal
  | .fault => some (.failure p.exitCodeFail)

/-- R185: the lines of OUT in order, each followed by LINE_TERM, and nothing else. That a diagnostic is no part of it is
the model's choice, since R6 and U8 leave the diagnostic's destination open (DESIGN CHOICE, log entry 11). -/
def hostStdout (p : Config.HostParams) (s : State) : List Char :=
  (s.out.map fun line => line ++ p.lineTerm).flatten

/-- R185: after a fault, a diagnostic made of the fault registers; it is not appended to OUT (D27). R6 and U8 leave both
its wording and its destination open: the wording is the parameter `diagFormat`, and the destination is not modelled,
the text being a result of its own beside `hostStdout` (DESIGN CHOICE, log entry 11). -/
def hostDiagnostic (p : Config.HostParams) (s : State) : Option Line :=
  match s.st with
  | .running => none
  | .done => none
  | .fault => some (p.diagFormat (faultCode s.fkind) s.fword s.fpos s.fidx)

end Sys2Proof.Machine
end

