-- ==== Sys2Proof/Machine/Ports.lean ====
section
/-! DEFINITION. The three sub-blocks at their ports (spec/40_decoder.md R71, spec/41_register_name_rom.md R92,
spec/42_renderer.md R109), and the combinational path from a word through all three. An output that the spec calls
meaningless while an error output is 1 is absent here (`none`), never a value (93_implementation_defined.md U15; DESIGN
CHOICE, log entry 8). The ROM's characters and the renderer's line while `err_invalid_index` is 1, of which the spec says
nothing, are absent as well (DESIGN CHOICE, log entry 8). -/

namespace Sys2Proof.Machine

/-- The record at the decoder's outputs and the renderer's inputs (R71): 0 = ToRegister, 1 = Register. -/
structure RecordPorts where
  opcode    : Opcode
  direction : BitVec 1
  wide      : BitVec 1
  mode      : BitVec 1
  register1 : BitVec 3
  register2 : BitVec 3
deriving DecidableEq, Repr

/-- The decoder's outputs (R71). -/
structure DecoderPorts where
  errUnknownOpcode : BitVec 1
  record           : Option RecordPorts
deriving DecidableEq, Repr

/-- R71: `mode` is `w[7] AND w[6]`. -/
def modePort (w : Word) : BitVec 1 := w.extractLsb' 7 1 &&& w.extractLsb' 6 1

/-- The decoder block (R71): a copy of each field, and the error when `w[15:10] != 0b100010`. -/
def decoderPorts (w : Word) : DecoderPorts :=
  match recognise (opcodeField w) with
  | none => { errUnknownOpcode := 1, record := none }
  | some op =>
    { errUnknownOpcode := 0
      record := some
        { opcode := op
          direction := directionField w
          wide := wideField w
          mode := modePort w
          register1 := register1Field w
          register2 := register2Field w } }

/-- The ROM's outputs (R92): `{char0, char1}` packed as the ROM word, absent while `err_invalid_index` is 1 (DESIGN
CHOICE, log entry 8). -/
structure RomPorts where
  errInvalidIndex : BitVec 1
  data            : Option (BitVec 16)
deriving DecidableEq, Repr

/-- The ROM block with a selector of IDX_WIDTH bits (R6, R92). What `char0` and `char1` carry for a selector above 7, which
a port of more than three bits can have, R92 does not say and U15 does not list: they are absent (DESIGN CHOICE, log
entry 8). -/
def romPorts (idxWidth : Nat) (sel : BitVec idxWidth) (wide : Bool) : RomPorts :=
  if sel.toNat > 7 then { errInvalidIndex := 1, data := none }
  else { errInvalidIndex := 0, data := some (romRead (romAddress wide (BitVec.ofNat 3 sel.toNat))) }

/-- What the renderer sends to the ROM (R109): the two selectors in operand order and the one width bit. -/
structure RomRequest where
  selA : BitVec 3
  selB : BitVec 3
  wide : BitVec 1
deriving DecidableEq, Repr

/-- The renderer's selectors (R102, R109). -/
def romRequest (I : RecordPorts) : RomRequest :=
  if I.direction = 0 then { selA := I.register1, selB := I.register2, wide := I.wide }
  else { selA := I.register2, selB := I.register1, wide := I.wide }

/-- The renderer's outputs (R109). -/
structure RendererPorts where
  errUnsupportedMode : BitVec 1
  errInvalidIndex    : BitVec 1
  line               : Option (BitVec 80)
deriving DecidableEq, Repr

/-- The 80 bits of a line with the names `nameA` and `nameB` (R108, R109): position 0 in the most significant byte,
`6D 6F 76 20`, the first name, `2C 20`, the second name. -/
def linePort (nameA nameB : BitVec 16) : BitVec 80 :=
  (0x6D6F7620 : BitVec 32) ++ nameA ++ (0x2C20 : BitVec 16) ++ nameB

/-- The renderer block with the ROM's answers to its two selectors (R109). In memory mode the ROM is not used (R101).
R109 does not say what `line` carries while `err_invalid_index` is 1: it is absent (DESIGN CHOICE, log entry 8). -/
def rendererPorts (I : RecordPorts) (a b : RomPorts) : RendererPorts :=
  if I.mode = 0 then { errUnsupportedMode := 1, errInvalidIndex := 0, line := none }
  else
    match a.data, b.data with
    | some na, some nb => { errUnsupportedMode := 0, errInvalidIndex := 0, line := some (linePort na nb) }
    | _, _ => { errUnsupportedMode := 0, errInvalidIndex := 1, line := none }

/-- The combinational path of one word: decoder, renderer and the ROM with IDX_WIDTH = 3; `none` when the decoder
raises its error and the renderer is not used (R82). -/
def wordPorts (w : Word) : Option RendererPorts :=
  (decoderPorts w).record.map fun I =>
    let r := romRequest I
    rendererPorts I (romPorts 3 r.selA (wideOf r.wide)) (romPorts 3 r.selB (wideOf r.wide))

/-- The bits of a line, one 8-bit code a character, position 0 in the most significant place (R107, R109). -/
def lineBits (line : Line) : BitVec 80 :=
  line.foldl (fun acc c => acc <<< 8 ||| (charCode c).setWidth 80) 0

end Sys2Proof.Machine
end

