-- ==== Sys2Proof/Safety.lean ====
section
/-! DEFINITION. What a run is and what holds along it, in the terms the statements use (spec/43_pipeline_step.md R125
to R127). -/

namespace Sys2Proof.Machine

/-- `k` steps of a run (R125), staying where the machine has no step. -/
def runSteps : Nat → State → State
  | 0, s => s
  | k + 1, s =>
    match step s with
    | .next s' => runSteps k s'
    | .fault _ => s
    | .refused _ => s

/-- The end of the run that starts in `s`: the state after NW + 1 steps, the most a run has (R126). -/
def endOfRun (s : State) : State := runSteps (wordCount s + 1) s

/-- The invariants of R126 that speak of `wp`, `OUT`, `ST` and the fault registers. -/
structure RunInv (s : State) : Prop where
  /-- `0 <= wp <= NW`. -/
  wp_le : s.wp ≤ wordCount s
  /-- "the number of lines in `OUT` equals `wp`". -/
  out_length : s.out.length = s.wp
  /-- "line `k` of `OUT` equals `Render(Decode(word k))` for every `k < wp`". -/
  out_line : ∀ k, k < s.wp → ∃ w line, fetchAt s k = some w ∧ wordOutcome w = .ok line ∧ s.out[k]? = some line
  /-- "`ST = Fault` if and only if `FKIND != 0`". -/
  fault_iff : s.st = .fault ↔ faultCode s.fkind ≠ 0
  /-- "if `ST = Fault` then `FPOS = wp < NW`, `FWORD` is word `wp`, and the step function applied to that word fails
  with kind `FKIND`". -/
  fault_record : s.st = .fault → s.fpos = s.wp ∧ s.wp < wordCount s ∧ fetchAt s s.wp = some s.fword ∧
    ∃ f, wordOutcome s.fword = .error f ∧ CoreFault.kind f = s.fkind
  /-- "if `ST = Done` then `wp = NW`". -/
  done_wp : s.st = .done → s.wp = wordCount s

/-- The words of a byte buffer (R31, R33): pairs of bytes, the first in the upper half; an odd last byte makes none. -/
def wordsOf : List Byte → List Word
  | b0 :: b1 :: rest => wordOfBytes b0 b1 :: wordsOf rest
  | _ => []

/-- R127: the lines of the words before the first that faults, and that word with its position and fault, if any. -/
def closedForm : Nat → List Word → List Line × Option (Nat × Word × CoreFault)
  | _, [] => ([], none)
  | p, w :: ws =>
    match wordOutcome w with
    | .error f => ([], some (p, w, f))
    | .ok line => (line :: (closedForm (p + 1) ws).1, (closedForm (p + 1) ws).2)

end Sys2Proof.Machine
end

