-- ==== Sys2Proof/Certificates/Slice0/Obligations.lean ====
section
/-! DEFINITION. The statements of this model for the provers, in the order of OBLIGATIONS.json. Where a docstring quotes,
it quotes the rule it names; "derived" says that the statement rests on a decision of the spec or of the model. -/

open Sys2Proof Sys2Proof.Machine

/-! ### Decoding and encoding -/

/-- Derived (R50, R59, R73): no bit of an encoding is dropped. For every well-formed instruction the byte decoder
reads back exactly that instruction from its two bytes, and leaves the bytes after them. -/
def Obligations.DecodeOfEncodeIsTheInstruction : Prop :=
  ∀ (i : Instr) (rest : List Byte), i.wf = true → decode (wordBytes (encode i) ++ rest) = .ok (i, rest)

/-- Derived (R50, R59): the other direction. Every word is the encoding of a well-formed instruction, the one the
decoder gives it, and of no other. -/
def Obligations.EncodeOfDecodeIsTheWord : Prop :=
  ∀ w : Word, (decodeWord w).wf = true ∧ encode (decodeWord w) = w ∧
    ∀ i : Instr, i.wf = true → encode i = w → i = decodeWord w

/-- Derived (95_test_vectors.md section 2): words written out from the spec, one or more of each kind of row. -/
def Obligations.SpecWordsDecodeToTheirInstructions : Prop :=
  decode [0x8B#8, 0xD8#8] = .ok (.movRegister .fromRegister true 3 0, []) ∧
  decode [0x88#8, 0xC8#8] = .ok (.movRegister .toRegister false 1 0, []) ∧
  decode [0x88#8, 0x00#8] = .ok (.movMemory00 .toRegister false 0 0, []) ∧
  decode [0x8B#8, 0x46#8] = .ok (.movMemory01 .fromRegister true 0 6, []) ∧
  decode [0x8B#8, 0xBF#8] = .ok (.movMemory10 .fromRegister true 7 7, []) ∧
  decode [0x08#8, 0xC0#8] = .ok (.illegalBit15 0x08C0, []) ∧
  decode [0xC8#8, 0xC0#8] = .ok (.illegalBit14 0xC8C0, []) ∧
  decode [0xA8#8, 0xC0#8] = .ok (.illegalBit13 0xA8C0, []) ∧
  decode [0x98#8, 0xC0#8] = .ok (.illegalBit12 0x98C0, []) ∧
  decode [0x80#8, 0xC0#8] = .ok (.illegalBit11 0x80C0, []) ∧
  decode [0x8C#8, 0xC0#8] = .ok (.illegalBit10 0x8CC0, [])

/-- Derived (R59: "A word matches exactly one row."): the only row of the opcode table a word lies in is the row of
the instruction it decodes to. -/
def Obligations.EveryWordLiesInExactlyItsRow : Prop :=
  ∀ w : Word, opcodeTable.filter (fun r => r.holds w) = [(decodeWord w).tableRow]

/-- R79, with R54, R55 and R56: each field by its place in the number, the opcode test first. -/
def Obligations.DecodeReadsEachFieldByPosition : Prop :=
  ∀ w : Word,
    (w.toNat / 1024 ≠ 34 → decodeRecord w = .error (.unknownOpcode w)) ∧
    (w.toNat / 1024 = 34 → decodeRecord w = .ok
      { opcode := .mov
        direction := if w.toNat / 512 % 2 = 0 then .toRegister else .fromRegister
        wide := decide (w.toNat / 256 % 2 = 1)
        mode := if w.toNat / 64 % 4 = 3 then .register else .memory
        register1 := w.toNat / 8 % 8
        register2 := w.toNat % 8 })

/-- Derived (40_decoder.md section 1, which marks it derived: "Each output field depends only on its own bits of the
word"). -/
def Obligations.EachFieldDependsOnlyOnItsOwnBits : Prop :=
  ∀ w v : Word,
    (w.toNat / 1024 = v.toNat / 1024 →
      ((∃ I, decodeRecord w = .ok I) ↔ (∃ J, decodeRecord v = .ok J))) ∧
    ∀ I J : InstructionRecord, decodeRecord w = .ok I → decodeRecord v = .ok J →
      I.opcode = J.opcode ∧
      (w.toNat / 512 % 2 = v.toNat / 512 % 2 → I.direction = J.direction) ∧
      (w.toNat / 256 % 2 = v.toNat / 256 % 2 → I.wide = J.wide) ∧
      (w.toNat / 64 % 4 = v.toNat / 64 % 4 → I.mode = J.mode) ∧
      (w.toNat / 8 % 8 = v.toNat / 8 % 8 → I.register1 = J.register1) ∧
      (w.toNat % 8 = v.toNat % 8 → I.register2 = J.register2)

/-- Derived (R11, R79, R81, R82): the row a word decodes to and the spec's `Decode` of the word say the same, and a
record the decoder makes keeps R11's invariant. -/
def Obligations.TableDecoderAgreesWithDecode : Prop :=
  ∀ w : Word, (decodeWord w).record = decodeRecord w ∧ ∀ I, decodeRecord w = .ok I → I.wf = true

/-- Derived (40_decoder.md section 1, which marks it derived: "1024 of them give `ok`, 64512 give
`fault(UnknownOpcode)`."). The two last counts are those of 30_encoding.md section 3, of the words that render and of
those that end in UnsupportedMode. -/
def Obligations.CountsOverAllWords : Prop :=
  ((Finset.range 65536).filter fun n => (decodeRecord (BitVec.ofNat 16 n)).isOk = true).card = 1024 ∧
  ((Finset.range 65536).filter fun n =>
    decodeRecord (BitVec.ofNat 16 n) = .error (.unknownOpcode (BitVec.ofNat 16 n))).card = 64512 ∧
  ((Finset.range 65536).filter fun n => (wordOutcome (BitVec.ofNat 16 n)).isOk = true).card = 256 ∧
  ((Finset.range 65536).filter fun n => wordOutcome (BitVec.ofNat 16 n) = .error .unsupportedMode).card = 768

/-- R76, with the outcomes of 30_encoding.md section 4: which words are illegal, which decode and are not renderable,
and which render; the MOD bits of an unknown-opcode word play no part, and no word raises InvalidRegisterIndex. -/
def Obligations.EveryWordHasOneOfThreeOutcomes : Prop :=
  ∀ w : Word,
    (w.toNat / 1024 ≠ 34 →
      decodeRecord w = .error (.unknownOpcode w) ∧ wordOutcome w = .error (.unknownOpcode w)) ∧
    (w.toNat / 1024 = 34 → w.toNat / 64 % 4 ≠ 3 →
      (∃ I, decodeRecord w = .ok I ∧ I.mode = .memory) ∧ wordOutcome w = .error .unsupportedMode) ∧
    (w.toNat / 1024 = 34 → w.toNat / 64 % 4 = 3 →
      (∃ I, decodeRecord w = .ok I ∧ I.mode = .register ∧ I.register1 ≤ 7 ∧ I.register2 ≤ 7) ∧
      ∃ line, wordOutcome w = .ok line)

/-! ### The ROM -/

/-- R90, R91 and R94: the sixteen names, which are the fixed table's entries, the failure of every other index, and
the two characters of every name. -/
def Obligations.RomNamesAreTheTable : Prop :=
  name 0 true = .ok ['a', 'x'] ∧ name 1 true = .ok ['c', 'x'] ∧ name 2 true = .ok ['d', 'x'] ∧
  name 3 true = .ok ['b', 'x'] ∧ name 4 true = .ok ['s', 'p'] ∧ name 5 true = .ok ['b', 'p'] ∧
  name 6 true = .ok ['s', 'i'] ∧ name 7 true = .ok ['d', 'i'] ∧
  name 0 false = .ok ['a', 'l'] ∧ name 1 false = .ok ['c', 'l'] ∧ name 2 false = .ok ['d', 'l'] ∧
  name 3 false = .ok ['b', 'l'] ∧ name 4 false = .ok ['a', 'h'] ∧ name 5 false = .ok ['c', 'h'] ∧
  name 6 false = .ok ['d', 'h'] ∧ name 7 false = .ok ['b', 'h'] ∧
  (∀ (i : Nat) (wide : Bool), 7 < i → name i wide = .error (.invalidRegisterIndex i)) ∧
  (∀ (i : Nat) (wide : Bool) (n : Line), name i wide = .ok n → i ≤ 7 ∧ n.length = Config.nameChars) ∧
  (∀ (i j : Nat) (v w : Bool) (n : Line), name i v = .ok n → name j w = .ok n → i = j ∧ v = w)

/-- Derived (41_register_name_rom.md section 3, the spec's own layout and ASCII codes): the address `{wide,
sel[2:0]}`, the data `{char0, char1}` in ASCII, and the error for a selector above 7, which a 3-bit port cannot have.
That the characters are absent then (`data := none`) is the model's choice, since R92 does not say what they carry
(DESIGN CHOICE, log entry 8). -/
def Obligations.RomPortsPackTheNames : Prop :=
  romContents.length = Config.romEntries ∧
  (∀ (wide : Bool) (sel : BitVec 3),
    (romAddress wide sel).toNat = 8 * wide.toNat + sel.toNat ∧
    ∃ c0 c1, name sel.toNat wide = .ok [c0, c1] ∧ romRead (romAddress wide sel) = charCode c0 ++ charCode c1) ∧
  (∀ (k : Nat) (sel : BitVec k) (wide : Bool),
    (7 < sel.toNat → romPorts k sel wide = { errInvalidIndex := 1, data := none }) ∧
    (sel.toNat ≤ 7 → ∃ c0 c1, name sel.toNat wide = .ok [c0, c1] ∧
      romPorts k sel wide = { errInvalidIndex := 0, data := some (charCode c0 ++ charCode c1) }))

/-! ### The renderer -/

/-- R100 to R105: the mode test first, then the first operand's lookup, then the second's; the line is put together
destination first. For every record, those with a selector above 7 among them. -/
def Obligations.RenderChecksThenOrdersOperands : Prop :=
  ∀ I : InstructionRecord,
    (I.mode = .memory → render I = .error .unsupportedMode) ∧
    ∀ first second : Nat,
      (I.direction = .toRegister → first = I.register1 ∧ second = I.register2) →
      (I.direction = .fromRegister → first = I.register2 ∧ second = I.register1) →
      I.mode = .register →
      (7 < first → render I = .error (.invalidRegisterIndex first)) ∧
      (first ≤ 7 → 7 < second → render I = .error (.invalidRegisterIndex second)) ∧
      (first ≤ 7 → second ≤ 7 → ∃ n1 n2, name first I.wide = .ok n1 ∧ name second I.wide = .ok n2 ∧
        render I = .ok (['m', 'o', 'v', ' '] ++ n1 ++ [',', ' '] ++ n2))

/-- Derived (42_renderer.md section 3, the ASCII codes and a layout it marks derived): ten characters at their places,
each of the fifteen characters with its code. -/
def Obligations.EveryLineHasTenCharactersOfTheFifteen : Prop :=
  ∀ (I : InstructionRecord) (line : Line), render I = .ok line →
    line.length = Config.lineChars ∧ line.take 4 = ['m', 'o', 'v', ' '] ∧ (line.drop 6).take 2 = [',', ' '] ∧
    ∀ c ∈ line, (c, charCode c) ∈
      [(' ', 0x20#8), (',', 0x2C#8), ('a', 0x61#8), ('b', 0x62#8), ('c', 0x63#8), ('d', 0x64#8), ('h', 0x68#8),
       ('i', 0x69#8), ('l', 0x6C#8), ('m', 0x6D#8), ('o', 0x6F#8), ('p', 0x70#8), ('s', 0x73#8), ('v', 0x76#8),
       ('x', 0x78#8)]

/-- Derived (R65): each line of a register-mode word is the line of exactly one other word, the one with the other
direction and REG and RM exchanged. -/
def Obligations.TwoWordsShareALineExactlyWhenExchanged : Prop :=
  ∀ (d d' : Direction) (w w' : Bool) (r1 r2 r1' r2' : BitVec 3),
    wordOutcome (encode (.movRegister d w r1 r2)) = wordOutcome (encode (.movRegister d' w' r1' r2')) ↔
      w = w' ∧ ((d = d' ∧ r1 = r1' ∧ r2 = r2') ∨ (d ≠ d' ∧ r1 = r2' ∧ r2 = r1'))

/-! ### What each instruction does -/

/-- Derived (R80 for the line, the word and the state written): every `movRegister` completes, with every operand. It
appends its one line, in one of four shapes, and advances `wp`; nothing else changes; and its word is `100010 d w 11 rrr
mmm`. That `exec` does so in every state, outside Running and from NW up too, where the spec has no step (R120), is the
model's choice (DESIGN CHOICE, log entry 12). -/
def Obligations.MovRegisterEmitsItsLineAndAdvances : Prop :=
  ∀ (r1 r2 : BitVec 3) (s : State) (W N : Nat → Line),
    W = (fun i => [['a', 'x'], ['c', 'x'], ['d', 'x'], ['b', 'x'], ['s', 'p'], ['b', 'p'], ['s', 'i'], ['d', 'i']].getD i []) →
    N = (fun i => [['a', 'l'], ['c', 'l'], ['d', 'l'], ['b', 'l'], ['a', 'h'], ['c', 'h'], ['d', 'h'], ['b', 'h']].getD i []) →
    ((encode (.movRegister .toRegister false r1 r2)).toNat = 0x88C0 + 8 * r1.toNat + r2.toNat ∧
     exec (.movRegister .toRegister false r1 r2) s =
      .next { s with out := s.out ++ [['m', 'o', 'v', ' '] ++ N r1.toNat ++ [',', ' '] ++ N r2.toNat], wp := s.wp + 1 }) ∧
    ((encode (.movRegister .toRegister true r1 r2)).toNat = 0x89C0 + 8 * r1.toNat + r2.toNat ∧
     exec (.movRegister .toRegister true r1 r2) s =
      .next { s with out := s.out ++ [['m', 'o', 'v', ' '] ++ W r1.toNat ++ [',', ' '] ++ W r2.toNat], wp := s.wp + 1 }) ∧
    ((encode (.movRegister .fromRegister false r1 r2)).toNat = 0x8AC0 + 8 * r1.toNat + r2.toNat ∧
     exec (.movRegister .fromRegister false r1 r2) s =
      .next { s with out := s.out ++ [['m', 'o', 'v', ' '] ++ N r2.toNat ++ [',', ' '] ++ N r1.toNat], wp := s.wp + 1 }) ∧
    ((encode (.movRegister .fromRegister true r1 r2)).toNat = 0x8BC0 + 8 * r1.toNat + r2.toNat ∧
     exec (.movRegister .fromRegister true r1 r2) s =
      .next { s with out := s.out ++ [['m', 'o', 'v', ' '] ++ W r2.toNat ++ [',', ' '] ++ W r1.toNat], wp := s.wp + 1 })

/-- Derived (R81 for the effect): every memory-mode MOV completes with its own effect, the fault entry for
UnsupportedMode ("State written: `ST`, `FKIND`, `FWORD`, `FPOS`. `OUT` and `wp` are unchanged."). Its word is `100010
d w mm rrr mmm`, and `Decode` of that word is a record that does not tell the three rows apart. That `exec` does so in
every state, outside Running and from NW up too, is the model's choice (DESIGN CHOICE, log entry 12). -/
def Obligations.MovMemoryTakesUnsupportedMode : Prop :=
  ∀ (d : Direction) (w : Bool) (r1 r2 : BitVec 3) (s : State) (i : Instr) (mm : Nat),
    (i = .movMemory00 d w r1 r2 ∧ mm = 0) ∨ (i = .movMemory01 d w r1 r2 ∧ mm = 1) ∨
      (i = .movMemory10 d w r1 r2 ∧ mm = 2) →
    exec i s = .next { s with st := .fault, fkind := .unsupportedMode, fword := encode i, fpos := s.wp } ∧
    faultCode .unsupportedMode = 3 ∧
    (encode i).toNat = 0x8800 + 512 * (if d = .fromRegister then 1 else 0) + 256 * w.toNat + 64 * mm + 8 * r1.toNat +
      r2.toNat ∧
    decodeRecord (encode i) = .ok
      { opcode := .mov, direction := d, wide := w, mode := .memory, register1 := r1.toNat, register2 := r2.toNat }

/-- Derived (R82 for the effect): every illegal word completes with its own effect, the fault entry for UnknownOpcode,
recording the word; and a word in its row is one whose top six bits are not 100010, on which `Decode` raises that
fault. That `exec` does so in every state, outside Running and from NW up too, and of a term whose word is not in its
row, is the model's choice (DESIGN CHOICE, log entries 12 and 1). -/
def Obligations.IllegalTakesUnknownOpcode : Prop :=
  ∀ (w : Word) (s : State) (i : Instr),
    i = .illegalBit15 w ∨ i = .illegalBit14 w ∨ i = .illegalBit13 w ∨ i = .illegalBit12 w ∨ i = .illegalBit11 w ∨
      i = .illegalBit10 w →
    exec i s = .next { s with st := .fault, fkind := .unknownOpcode, fword := w, fpos := s.wp } ∧
    faultCode .unknownOpcode = 1 ∧
    (i.wf = true → w.toNat / 1024 ≠ 34 ∧ decodeRecord w = .error (.unknownOpcode w))

/-- Frame of `movRegister` (derived: R80, R4): but for OUT, which grows, and `wp`, nothing changes: no status or fault
register, no byte of the input buffer and not its length; the lines already in OUT stay. Outside Running `exec` is log
entry 12's. -/
def Obligations.MovRegisterFrame : Prop :=
  ∀ (d : Direction) (w : Bool) (r1 r2 : BitVec 3) (s t : State), exec (.movRegister d w r1 r2) s = .next t →
    t.st = s.st ∧ t.fkind = s.fkind ∧ t.fword = s.fword ∧ t.fpos = s.fpos ∧ t.fidx = s.fidx ∧ t.n = s.n ∧
    (∀ a, readByte t a = readByte s a) ∧ ∀ k, k < s.out.length → t.out[k]? = s.out[k]?

/-- Frame of the forms that fault (derived: R81, R82, R158): the three memory-mode rows and the six illegal rows
change ST, FKIND, FWORD and FPOS only. Outside Running `exec` is log entry 12's. -/
def Obligations.FaultingFormsFrame : Prop :=
  ∀ (d : Direction) (w : Bool) (r1 r2 : BitVec 3) (v : Word) (i : Instr) (s t : State),
    i ∈ [Instr.movMemory00 d w r1 r2, .movMemory01 d w r1 r2, .movMemory10 d w r1 r2, .illegalBit15 v, .illegalBit14 v,
      .illegalBit13 v, .illegalBit12 v, .illegalBit11 v, .illegalBit10 v] →
    exec i s = .next t →
    t.wp = s.wp ∧ t.out = s.out ∧ t.fidx = s.fidx ∧ t.n = s.n ∧ ∀ a, readByte t a = readByte s a

/-- Derived (R158 for what is written and kept): the fault entry, for a word the decoder turns away and for a record
whose rendering fails in any way, the unreachable InvalidRegisterIndex among them; FIDX is written only for that one.
That the processing does so in every state, where R158 speaks of a fault raised during a step, is the model's choice
(DESIGN CHOICE, log entry 12). -/
def Obligations.FaultEntryWritesTheRecord : Prop :=
  (∀ (w : Word) (s : State), ∃ t, processUnknown w s = .next t ∧
    Status.code t.st = 2 ∧ faultCode t.fkind = 1 ∧ t.fword = w ∧ t.fpos = s.wp ∧ t.fidx = s.fidx ∧ t.out = s.out ∧
    t.wp = s.wp ∧ t.n = s.n ∧ ∀ a, readByte t a = readByte s a) ∧
  (∀ (w : Word) (I : InstructionRecord) (s : State) (f : CoreFault), render I = .error f →
    ∃ t, processRecord w I s = .next t ∧
      Status.code t.st = 2 ∧ t.fword = w ∧ t.fpos = s.wp ∧ t.out = s.out ∧ t.wp = s.wp ∧
      t.n = s.n ∧ (∀ a, readByte t a = readByte s a) ∧
      ((f = .unsupportedMode ∧ faultCode t.fkind = 3 ∧ t.fidx = s.fidx) ∨
       ∃ i, f = .invalidRegisterIndex i ∧ 7 < i ∧ faultCode t.fkind = 2 ∧ t.fidx = i))

/-! ### The step -/

/-- Derived (R31, R121): a step runs the instruction decoded from the two bytes at the word pointer, and does nothing
around it. -/
def Obligations.StepRunsTheDecodedInstruction : Prop :=
  ∀ (s : State) (b0 b1 : Byte) (i : Instr) (rest : List Byte),
    s.st = .running → s.wp < wordCount s →
    readByte s (2 * s.wp) = some b0 → readByte s (2 * s.wp + 1) = some b1 →
    decode (b0 :: b1 :: rest) = .ok (i, rest) →
    i.wf = true ∧ step s = exec i s

/-- R121: the step through `exec` is the spec's step, written with `Decode` and `Render` and no opcode table, arm by
arm. -/
def Obligations.StepIsTheSpecStep : Prop :=
  ∀ s : State,
    step s = specStep s ∧
    (s.st = .running → s.wp = wordCount s → step s = .next { s with st := .done }) ∧
    (s.st = .running → s.wp < wordCount s → ∃ w, fetch s = some w ∧
      ((∀ f, decodeRecord w = .error f → step s = .next (abort f w s)) ∧
       (∀ I f, decodeRecord w = .ok I → render I = .error f → step s = .next (abort f w s)) ∧
       (∀ I line, decodeRecord w = .ok I → render I = .ok line →
         step s = .next { s with out := s.out ++ [line], wp := s.wp + 1 })))

/-- R31 and R32: the fetch cannot fail below NW, and the byte at the lower offset is the more significant half. -/
def Obligations.FetchIsBigEndian : Prop :=
  ∀ s : State, s.wp < wordCount s →
    ∃ b0 b1 w, readByte s (2 * s.wp) = some b0 ∧ readByte s (2 * s.wp + 1) = some b1 ∧ fetch s = some w ∧
      w.toNat = 256 * b0.toNat + b1.toNat

/-- R123: "When `ST = Running` and `wp = NW`, the step sets `ST <- Done` and changes nothing else." In a run, OUT then
has NW lines and no fault occurred; a trailing odd byte does not matter. -/
def Obligations.EndOfInputSetsDone : Prop :=
  ∀ s : State, s.st = .running → s.wp = s.n / 2 →
    step s = .next { s with st := .done } ∧ (RunInv s → s.out.length = s.n / 2 ∧ faultCode s.fkind = 0)

/-- R120: no step from Done or from Fault, and reset starts another run. -/
def Obligations.NoStepAfterTheEndOfARun : Prop :=
  ∀ s : State, s.st ≠ .running → (∀ t, step s ≠ .next t) ∧ (applyReset s).st = .running

/-- R122 and R37: a step that renders its word emits exactly that line, after the earlier ones, and moves `wp` by one;
a step that does not leaves `wp` and OUT and ends the run. -/
def Obligations.WpAndOutMoveTogether : Prop :=
  ∀ s t : State, step s = .next t →
    (t.wp = s.wp + 1 ∧ t.st = .running ∧
      ∃ w line, fetch s = some w ∧ wordOutcome w = .ok line ∧ t.out = s.out ++ [line]) ∨
    (t.wp = s.wp ∧ t.out = s.out ∧ (t.st = .done ∨ t.st = .fault) ∧
      ∀ w, fetch s = some w → s.wp ≠ wordCount s → ∃ f, wordOutcome w = .error f)

/-- Derived (10_state.md section 8, 20_memory.md sections 4 and 8): no step writes IBUF or N. -/
def Obligations.NoStepWritesTheInput : Prop :=
  ∀ s t : State, step s = .next t → t.n = s.n ∧ t.ibuf = s.ibuf ∧ ∀ a, readByte t a = readByte s a

/-- Derived (41_register_name_rom.md section 4, 60_exceptions.md section 1): no step raises InvalidRegisterIndex, so
none writes FIDX, and none sets FKIND to 4 or 5. -/
def Obligations.NoStepRaisesAnIndexOrHostFault : Prop :=
  ∀ s t : State, step s = .next t →
    t.fidx = s.fidx ∧ (t.fkind = s.fkind ∨ faultCode t.fkind = 1 ∨ faultCode t.fkind = 3) ∧
    (t.st = .fault → faultCode t.fkind = 1 ∨ faultCode t.fkind = 3)

/-- R132: what a step does with a word depends on that word alone, not on its position, on the rest of the buffer or
on OUT. -/
def Obligations.WordOutcomeIsIndependentOfTheRest : Prop :=
  ∀ s s' t t' : State, s.st = .running → t.st = .running → s.wp < wordCount s → t.wp < wordCount t →
    fetch s = fetch t → step s = .next s' → step t = .next t' →
    s'.st = t'.st ∧ s'.out.drop s.out.length = t'.out.drop t.out.length ∧
    (s'.st = .fault → s'.fkind = t'.fkind ∧ s'.fword = t'.fword)

/-! ### The run -/

/-- Derived (43_pipeline_step.md section 2, which marks it derived): every step keeps the invariants of a run, from
every state that has them; and the canonical form of the buffer, a form that is the model's choice (DESIGN CHOICE, log
entry 2). -/
def Obligations.EveryStepKeepsTheRunInvariant : Prop :=
  ∀ s t : State, RunInv s → s.wf = true → step s = .next t → RunInv t ∧ t.wf = true

/-- Derived (43_pipeline_step.md section 2): a run starts in its invariants, whatever buffer the host supplies; so
does `State.reset`, whose buffer is the empty one by the model's choice (DESIGN CHOICE, log entry 3). The canonical form
of the buffer is the model's choice as well (DESIGN CHOICE, log entry 2). -/
def Obligations.EveryRunStartsInTheInvariant : Prop :=
  (∀ bytes : List Byte, RunInv (startRun bytes) ∧ (startRun bytes).wf = true) ∧
  RunInv State.reset ∧ State.reset.wf = true

/-- Derived (43_pipeline_step.md section 2: "There is no hang and no stuck state."): from every running state with `wp
<= NW` there is a step, and the run has ended after NW - wp + 1 steps. -/
def Obligations.EveryRunEnds : Prop :=
  ∀ s : State, s.st = .running → s.wp ≤ wordCount s →
    (∃ t, step s = .next t) ∧ (runSteps (wordCount s - s.wp + 1) s).st ≠ .running

/-- Derived (43_pipeline_step.md section 2, "The run in closed form"): for every buffer. -/
def Obligations.RunInClosedForm : Prop :=
  ∀ (bytes : List Byte) (e : State), e = endOfRun (startRun bytes) →
    e.out = (closedForm 0 (wordsOf bytes)).1 ∧
    ((closedForm 0 (wordsOf bytes)).2 = none →
      e.st = .done ∧ e.wp = bytes.length / 2 ∧ faultCode e.fkind = 0) ∧
    (∀ p w f, (closedForm 0 (wordsOf bytes)).2 = some (p, w, f) →
      e.st = .fault ∧ e.wp = p ∧ e.fpos = p ∧ e.fword = w ∧ e.fkind = CoreFault.kind f)

/-- Derived (20_memory.md section 8, which marks it derived): what a user of the block can rely on at the end of a
run. -/
def Obligations.LinesStandForTheirWordsInOrder : Prop :=
  ∀ (bytes : List Byte) (e : State), e = endOfRun (startRun bytes) →
    e.st ≠ .running ∧
    (∀ (k : Nat) (line : Line), e.out[k]? = some line → ∃ w, (wordsOf bytes)[k]? = some w ∧ wordOutcome w = .ok line) ∧
    (e.st = .fault → e.out.length = e.fpos ∧
      ∃ f, (wordsOf bytes)[e.fpos]? = some e.fword ∧ wordOutcome e.fword = .error f) ∧
    (e.st = .done → e.out.length = bytes.length / 2)

/-- Derived (20_memory.md section 3): an odd trailing byte "cannot influence `OUT`, `ST` or the fault registers". -/
def Obligations.TrailingByteHasNoInfluence : Prop :=
  ∀ (bytes : List Byte) (b : Byte) (e e' : State), bytes.length % 2 = 0 →
    e = endOfRun (startRun bytes) → e' = endOfRun (startRun (bytes ++ [b])) →
    wordCount e' = wordCount e ∧ e'.out = e.out ∧ e'.st = e.st ∧ e'.wp = e.wp ∧ e'.fkind = e.fkind ∧
    e'.fword = e.fword ∧ e'.fpos = e.fpos ∧ e'.fidx = e.fidx

/-- Derived (R127: "Words after `p` have no effect whatever, whatever they are."): two buffers that agree up to a word
that faults end alike. -/
def Obligations.BytesAfterAFaultHaveNoEffect : Prop :=
  ∀ (before after after' : List Byte) (b0 b1 : Byte) (f : CoreFault) (e e' : State), before.length % 2 = 0 →
    wordOutcome (wordOfBytes b0 b1) = .error f →
    e = endOfRun (startRun (before ++ b0 :: b1 :: after)) →
    e' = endOfRun (startRun (before ++ b0 :: b1 :: after')) →
    e.st = .fault ∧ e'.out = e.out ∧ e'.st = e.st ∧ e'.wp = e.wp ∧ e'.fkind = e.fkind ∧ e'.fword = e.fword ∧
    e'.fpos = e.fpos ∧ e'.fidx = e.fidx

/-- Derived (R13, D3): a hardware word pointer of `p` bits with `NW < 2^p` never wraps, and its increment is exact. -/
def Obligations.WordPointerOfEnoughBitsIsExact : Prop :=
  ∀ (p : Nat) (s t : State), RunInv s → wordCount s < 2 ^ p → step s = .next t →
    (BitVec.ofNat p t.wp).toNat = t.wp ∧
    (BitVec.ofNat p t.wp = BitVec.ofNat p s.wp ∨ BitVec.ofNat p t.wp = BitVec.ofNat p s.wp + 1#p)

/-! ### Reset, the buffer, and the host -/

/-- R180: the seven items take their reset values from any state, and the next step fetches word 0 at byte offset 0,
or, with NW = 0, ends the run with Done. IBUF and N stay ("Reset does not touch `IBUF`, `N` or the ROM", R182). -/
def Obligations.ResetSetsTheSevenItems : Prop :=
  ∀ s : State,
    (applyReset s).wp = 0 ∧ Status.code (applyReset s).st = 0 ∧ faultCode (applyReset s).fkind = 0 ∧
    (applyReset s).fword = 0 ∧ (applyReset s).fpos = 0 ∧ (applyReset s).fidx = 0 ∧ (applyReset s).out = [] ∧
    (applyReset s).n = s.n ∧ (∀ a, readByte (applyReset s) a = readByte s a) ∧
    (∀ w, fetchAt s 0 = some w → step (applyReset s) = exec (decodeWord w) (applyReset s)) ∧
    (wordCount s = 0 → step (applyReset s) = .next { applyReset s with st := .done })

/-- Derived (R19, R184; log entry 2): the buffer a host supplies reads back byte for byte, has no other offset, and is
in canonical form. -/
def Obligations.SuppliedBufferReadsBack : Prop :=
  ∀ (bytes : List Byte) (s : State),
    (∀ j, readByte (supply bytes s) j = bytes[j]?) ∧ (supply bytes s).wf = true

/-- Derived (log entry 2): canonical buffers that read alike are equal data. -/
def Obligations.CanonicalBuffersThatReadAlikeAreEqual : Prop :=
  ∀ m m' : Memory, Memory.wf m = true → Memory.wf m' = true → (∀ j, Memory.read m j = Memory.read m' j) → m = m'

/-- Derived (log entry 4): the word the host places is the one the next step runs, and the placing changes no other
byte that was in the buffer, no line, no word pointer and no fault register. -/
def Obligations.PlacedWordIsTheNextOneRun : Prop :=
  ∀ (s : State) (w : Word) (t : State), s.wf = true → t = s.withFetchWord 16 w.toNat →
    step t = exec (decodeWord w) t ∧ t.wf = true ∧ t.wp = s.wp ∧ t.out = s.out ∧ t.fkind = s.fkind ∧
    t.fword = s.fword ∧ t.fpos = s.fpos ∧ t.fidx = s.fidx ∧
    ∀ a, a < s.n → a ≠ 2 * s.wp → a ≠ 2 * s.wp + 1 → readByte t a = readByte s a

/-- Derived (R154, R185): what the host makes of the state, with LINE_TERM, EXIT_CODE_FAIL and DIAG_FORMAT as
parameters. That the output grows by the emitted line and its terminator alone, with the diagnostic apart from it, is
the model's choice (DESIGN CHOICE, log entry 11). -/
def Obligations.HostReadsTheEndOfARun : Prop :=
  (∀ (p : Config.HostParams) (s : State),
    (s.st = .fault → (∃ c, c ≠ 0 ∧ hostExit p s = some (.failure c)) ∧
      hostDiagnostic p s = some (p.diagFormat (faultCode s.fkind) s.fword s.fpos s.fidx)) ∧
    (s.st = .done → hostExit p s = some .normal ∧ hostDiagnostic p s = none) ∧
    (s.st = .running → hostExit p s = none ∧ hostDiagnostic p s = none) ∧
    (∀ line, hostStdout p { s with out := s.out ++ [line] } = hostStdout p s ++ line ++ p.lineTerm)) ∧
  hostStart none = .noRun .fileIO ∧ ∀ bytes, hostStart (some bytes) = .started (startRun bytes)

/-! ### The ports -/

/-- Derived (R71 for the copied bits and the error): the decoder's outputs are copies of the word's bits, and its error
is 1 exactly when the opcode is unknown. That there is no other output then (`record := none`), where R71 says that the
outputs are meaningless and must not be used, is the model's choice (DESIGN CHOICE, log entry 8). -/
def Obligations.DecoderPortsCopyTheFields : Prop :=
  ∀ w : Word,
    (w.toNat / 1024 ≠ 34 → decoderPorts w = { errUnknownOpcode := 1, record := none }) ∧
    (w.toNat / 1024 = 34 → ∃ r : RecordPorts, decoderPorts w = { errUnknownOpcode := 0, record := some r } ∧
      r.opcode = .mov ∧ r.direction.toNat = w.toNat / 512 % 2 ∧ r.wide.toNat = w.toNat / 256 % 2 ∧
      r.mode.toNat = (w.toNat / 128 % 2) * (w.toNat / 64 % 2) ∧
      r.register1.toNat = w.toNat / 8 % 8 ∧ r.register2.toNat = w.toNat % 8)

/-- Derived (R71, R92, R109): the three blocks joined at their ports carry, as 80 bits, the line that the functions
give, or raise the error of the same fault. That an output is absent then is the model's choice (DESIGN CHOICE, log
entry 8). -/
def Obligations.PortsCarryTheLineOfTheFunctions : Prop :=
  ∀ w : Word,
    (∀ line, wordOutcome w = .ok line →
      wordPorts w = some { errUnsupportedMode := 0, errInvalidIndex := 0, line := some (lineBits line) }) ∧
    (wordOutcome w = .error .unsupportedMode →
      wordPorts w = some { errUnsupportedMode := 1, errInvalidIndex := 0, line := none }) ∧
    (∀ v, wordOutcome w = .error (.unknownOpcode v) → wordPorts w = none ∧ (decoderPorts w).errUnknownOpcode = 1)

/-! ### BitPacker, outside the hardware -/

/-- R141 and R142: bit `j` of the `k`-th group of eight recognised bits is bit `7 - j` of output byte `k`, and there
are `floor(count/8)` output bytes. -/
def Obligations.PackTakesEightBitsMostSignificantFirst : Prop :=
  ∀ text : List Char,
    (pack text).length = (packBits text).length / 8 ∧
    ∀ k j : Nat, k < (pack text).length → j < 8 →
      ((pack text)[k]?).map (fun b => b.getLsbD (7 - j)) = (packBits text)[8 * k + j]?

/-- Derived (R145): a text whose recognised bits are a word's sixteen bits, most significant first, packs to the two
bytes that the block fetches as that word. -/
def Obligations.PackedWordIsFetchedAsThatWord : Prop :=
  ∀ (text : List Char) (w : Word), packBits text = (List.range 16).map (fun j => w.getLsbD (15 - j)) →
    pack text = wordBytes w ∧ fetch (startRun (pack text)) = some w
end

