-- ==== Sys2Proof/Laws/State.lean ====
section
/-! SUPPORT. One lemma per field and per state operation of Machine/Ops.lean, each true by unfolding the record update
once, so that no later proof unfolds one. -/

namespace Sys2Proof.Machine

variable (s : State)

/-! ### `emit` -/

@[simp] theorem emit_wp (line : Line) : (emit line s).wp = s.wp := rfl
@[simp] theorem emit_st (line : Line) : (emit line s).st = s.st := rfl
@[simp] theorem emit_fkind (line : Line) : (emit line s).fkind = s.fkind := rfl
@[simp] theorem emit_fword (line : Line) : (emit line s).fword = s.fword := rfl
@[simp] theorem emit_fpos (line : Line) : (emit line s).fpos = s.fpos := rfl
@[simp] theorem emit_fidx (line : Line) : (emit line s).fidx = s.fidx := rfl
@[simp] theorem emit_out (line : Line) : (emit line s).out = s.out ++ [line] := rfl
@[simp] theorem emit_ibuf (line : Line) : (emit line s).ibuf = s.ibuf := rfl
@[simp] theorem emit_n (line : Line) : (emit line s).n = s.n := rfl

/-! ### `advance` -/

@[simp] theorem advance_wp : (advance s).wp = s.wp + 1 := rfl
@[simp] theorem advance_st : (advance s).st = s.st := rfl
@[simp] theorem advance_fkind : (advance s).fkind = s.fkind := rfl
@[simp] theorem advance_fword : (advance s).fword = s.fword := rfl
@[simp] theorem advance_fpos : (advance s).fpos = s.fpos := rfl
@[simp] theorem advance_fidx : (advance s).fidx = s.fidx := rfl
@[simp] theorem advance_out : (advance s).out = s.out := rfl
@[simp] theorem advance_ibuf : (advance s).ibuf = s.ibuf := rfl
@[simp] theorem advance_n : (advance s).n = s.n := rfl

/-! ### `finish` -/

@[simp] theorem finish_wp : (finish s).wp = s.wp := rfl
@[simp] theorem finish_st : (finish s).st = .done := rfl
@[simp] theorem finish_fkind : (finish s).fkind = s.fkind := rfl
@[simp] theorem finish_fword : (finish s).fword = s.fword := rfl
@[simp] theorem finish_fpos : (finish s).fpos = s.fpos := rfl
@[simp] theorem finish_fidx : (finish s).fidx = s.fidx := rfl
@[simp] theorem finish_out : (finish s).out = s.out := rfl
@[simp] theorem finish_ibuf : (finish s).ibuf = s.ibuf := rfl
@[simp] theorem finish_n : (finish s).n = s.n := rfl

/-! ### `abort` -/

@[simp] theorem abort_wp (f : CoreFault) (w : Word) : (abort f w s).wp = s.wp := rfl
@[simp] theorem abort_st (f : CoreFault) (w : Word) : (abort f w s).st = .fault := rfl
@[simp] theorem abort_fkind (f : CoreFault) (w : Word) : (abort f w s).fkind = CoreFault.kind f := rfl
@[simp] theorem abort_fword (f : CoreFault) (w : Word) : (abort f w s).fword = w := rfl
@[simp] theorem abort_fpos (f : CoreFault) (w : Word) : (abort f w s).fpos = s.wp := rfl
@[simp] theorem abort_fidx (f : CoreFault) (w : Word) : (abort f w s).fidx = faultIndex f s.fidx := rfl
@[simp] theorem abort_out (f : CoreFault) (w : Word) : (abort f w s).out = s.out := rfl
@[simp] theorem abort_ibuf (f : CoreFault) (w : Word) : (abort f w s).ibuf = s.ibuf := rfl
@[simp] theorem abort_n (f : CoreFault) (w : Word) : (abort f w s).n = s.n := rfl

/-! ### `applyReset` -/

@[simp] theorem applyReset_wp : (applyReset s).wp = 0 := rfl
@[simp] theorem applyReset_st : (applyReset s).st = .running := rfl
@[simp] theorem applyReset_fkind : (applyReset s).fkind = .noFault := rfl
@[simp] theorem applyReset_fword : (applyReset s).fword = 0 := rfl
@[simp] theorem applyReset_fpos : (applyReset s).fpos = 0 := rfl
@[simp] theorem applyReset_fidx : (applyReset s).fidx = 0 := rfl
@[simp] theorem applyReset_out : (applyReset s).out = [] := rfl
@[simp] theorem applyReset_ibuf : (applyReset s).ibuf = s.ibuf := rfl
@[simp] theorem applyReset_n : (applyReset s).n = s.n := rfl

/-! ### `supply` -/

@[simp] theorem supply_wp (bytes : List Byte) : (supply bytes s).wp = s.wp := rfl
@[simp] theorem supply_st (bytes : List Byte) : (supply bytes s).st = s.st := rfl
@[simp] theorem supply_fkind (bytes : List Byte) : (supply bytes s).fkind = s.fkind := rfl
@[simp] theorem supply_fword (bytes : List Byte) : (supply bytes s).fword = s.fword := rfl
@[simp] theorem supply_fpos (bytes : List Byte) : (supply bytes s).fpos = s.fpos := rfl
@[simp] theorem supply_fidx (bytes : List Byte) : (supply bytes s).fidx = s.fidx := rfl
@[simp] theorem supply_out (bytes : List Byte) : (supply bytes s).out = s.out := rfl
@[simp] theorem supply_ibuf (bytes : List Byte) : (supply bytes s).ibuf = Memory.ofBytesFrom 0 bytes := rfl
@[simp] theorem supply_n (bytes : List Byte) : (supply bytes s).n = bytes.length := rfl

/-! ### `placeWord` -/

@[simp] theorem placeWord_wp (w : Word) : (placeWord w s).wp = s.wp := rfl
@[simp] theorem placeWord_st (w : Word) : (placeWord w s).st = .running := rfl
@[simp] theorem placeWord_fkind (w : Word) : (placeWord w s).fkind = s.fkind := rfl
@[simp] theorem placeWord_fword (w : Word) : (placeWord w s).fword = s.fword := rfl
@[simp] theorem placeWord_fpos (w : Word) : (placeWord w s).fpos = s.fpos := rfl
@[simp] theorem placeWord_fidx (w : Word) : (placeWord w s).fidx = s.fidx := rfl
@[simp] theorem placeWord_out (w : Word) : (placeWord w s).out = s.out := rfl
@[simp] theorem placeWord_ibuf (w : Word) :
    (placeWord w s).ibuf =
      Memory.write (Memory.write s.ibuf (2 * s.wp) (firstByte w)) (2 * s.wp + 1) (secondByte w) := rfl
@[simp] theorem placeWord_n (w : Word) : (placeWord w s).n = max s.n (2 * s.wp + 2) := rfl

end Sys2Proof.Machine
end

