-- ==== Sys2Proof/Laws/Buffer.lean ====
section
/-! SUPPORT. The input buffer: a read after a write, and the canonical form, which every operation keeps. -/

namespace Sys2Proof.Machine

/-- A canonical buffer whose offsets start above `j` gives `j` the unlisted byte. -/
theorem read_below {lo j : Nat} {m : Memory} (h : Memory.wfFrom lo m = true) (hj : j < lo) :
    Memory.read m j = Config.unlistedByte := by
  induction m generalizing lo with
  | nil => rfl
  | cons c m ih =>
    obtain ⟨k, b⟩ := c
    simp only [Memory.wfFrom, Bool.and_eq_true, decide_eq_true_eq] at h
    have hne : k ≠ j := by omega
    simp only [Memory.read, hne, if_false]
    exact ih h.2 (by omega)

/-- The canonical form from a higher start is canonical from a lower one. -/
theorem wfFrom_weaken {lo lo' : Nat} {m : Memory} (h : Memory.wfFrom lo m = true) (hle : lo' ≤ lo) :
    Memory.wfFrom lo' m = true := by
  cases m with
  | nil => rfl
  | cons c m =>
    obtain ⟨k, b⟩ := c
    simp only [Memory.wfFrom, Bool.and_eq_true, decide_eq_true_eq] at h ⊢
    exact ⟨⟨by omega, h.1.2⟩, h.2⟩

/-- A write at or above the start keeps the canonical form. -/
theorem write_wfFrom {lo a : Nat} {v : Byte} {m : Memory} (h : Memory.wfFrom lo m = true) (ha : lo ≤ a) :
    Memory.wfFrom lo (Memory.write m a v) = true := by
  induction m generalizing lo with
  | nil =>
    unfold Memory.write
    split
    · rfl
    · simp_all [Memory.wfFrom]
  | cons c m ih =>
    obtain ⟨k, b⟩ := c
    have h' := h
    simp only [Memory.wfFrom, Bool.and_eq_true, decide_eq_true_eq] at h
    unfold Memory.write
    split
    · rename_i hlt
      split
      · exact h'
      · rename_i hv
        simp only [Memory.wfFrom, Bool.and_eq_true, decide_eq_true_eq]
        exact ⟨⟨ha, by simpa using hv⟩, ⟨by omega, h.1.2⟩, h.2⟩
    · split
      · rename_i heq
        subst heq
        split
        · exact wfFrom_weaken h.2 (by omega)
        · rename_i hv
          simp only [Memory.wfFrom, Bool.and_eq_true, decide_eq_true_eq]
          exact ⟨⟨ha, by simpa using hv⟩, h.2⟩
      · simp only [Memory.wfFrom, Bool.and_eq_true, decide_eq_true_eq]
        exact ⟨h.1, ih h.2 (by omega)⟩

/-- A write keeps the canonical form. -/
theorem write_wf {a : Nat} {v : Byte} {m : Memory} (h : Memory.wf m = true) :
    Memory.wf (Memory.write m a v) = true :=
  write_wfFrom h (Nat.zero_le a)

/-- A read after a write, from any start of the canonical form. -/
theorem read_write_from {lo a : Nat} {v : Byte} {m : Memory} (h : Memory.wfFrom lo m = true) (j : Nat) :
    Memory.read (Memory.write m a v) j = if j = a then v else Memory.read m j := by
  induction m generalizing lo with
  | nil =>
    unfold Memory.write
    split <;> rename_i hv <;> by_cases hj : j = a <;> simp [Memory.read, hj, hv]
    intro heq
    exact absurd heq.symm hj
  | cons c m ih =>
    obtain ⟨k, b⟩ := c
    simp only [Memory.wfFrom, Bool.and_eq_true, decide_eq_true_eq] at h
    have below : ∀ i, i ≤ k → Memory.read m i = Config.unlistedByte := fun i hi => read_below h.2 (by omega)
    unfold Memory.write
    split
    · rename_i hlt
      split
      · rename_i hv
        by_cases hj : j = a
        · subst hj
          have hne : k ≠ j := by omega
          simp [Memory.read, hne, hv, below j (by omega)]
        · simp [hj]
      · by_cases hj : j = a
        · subst hj
          simp [Memory.read]
        · have hne : a ≠ j := fun e => hj e.symm
          simp [Memory.read, hj, hne]
    · split
      · rename_i heq
        subst heq
        split
        · rename_i hv
          by_cases hj : j = a
          · subst hj
            simp [hv, below j (Nat.le_refl j)]
          · have hne : a ≠ j := fun e => hj e.symm
            simp [Memory.read, hj, hne]
        · by_cases hj : j = a
          · subst hj
            simp [Memory.read]
          · have hne : a ≠ j := fun e => hj e.symm
            simp [Memory.read, hj, hne]
      · rename_i hlt hne
        by_cases hk : k = j
        · subst hk
          have hka : k ≠ a := fun e => hne e.symm
          simp [Memory.read, hka]
        · simp only [Memory.read, hk, if_false]
          exact ih h.2

/-- Reading back what was written at `a`, and every other offset as before. -/
theorem read_write {a : Nat} {v : Byte} {m : Memory} (h : Memory.wf m = true) (j : Nat) :
    Memory.read (Memory.write m a v) j = if j = a then v else Memory.read m j :=
  read_write_from h j

/-- The pairs of a byte list are canonical. -/
theorem ofBytesFrom_wfFrom {lo a : Nat} (bytes : List Byte) (h : lo ≤ a) :
    Memory.wfFrom lo (Memory.ofBytesFrom a bytes) = true := by
  induction bytes generalizing lo a with
  | nil => rfl
  | cons b bs ih =>
    unfold Memory.ofBytesFrom
    split
    · exact ih (by omega)
    · rename_i hb
      simp only [Memory.wfFrom, Bool.and_eq_true, decide_eq_true_eq]
      exact ⟨⟨h, by simpa using hb⟩, ih (Nat.le_refl _)⟩

/-- The buffer of a byte list is canonical. -/
theorem ofBytes_wf (bytes : List Byte) : Memory.wf (Memory.ofBytesFrom 0 bytes) = true :=
  ofBytesFrom_wfFrom bytes (Nat.le_refl 0)

/-- The pairs of a byte list lie below its end. -/
theorem ofBytesFrom_below (a : Nat) (bytes : List Byte) :
    Memory.below (Memory.ofBytesFrom a bytes) (a + bytes.length) = true := by
  induction bytes generalizing a with
  | nil => rfl
  | cons b bs ih =>
    have hi := ih (a + 1)
    simp only [Memory.below, List.all_eq_true, decide_eq_true_eq] at hi ⊢
    intro c hc
    simp only [List.length_cons]
    unfold Memory.ofBytesFrom at hc
    split at hc
    · have := hi c hc
      omega
    · rcases List.mem_cons.mp hc with rfl | hc
      · simp
      · have := hi c hc
        omega

/-- Every offset listed after a write is the written one or was listed before. -/
theorem write_mem {a : Nat} {v : Byte} {m : Memory} {c : Host.Cell} (h : c ∈ Memory.write m a v) :
    c.1 = a ∨ c ∈ m := by
  induction m with
  | nil =>
    unfold Memory.write at h
    split at h
    · cases h
    · simp_all
  | cons d m ih =>
    obtain ⟨k, b⟩ := d
    unfold Memory.write at h
    split at h
    · split at h
      · exact .inr h
      · rcases List.mem_cons.mp h with rfl | h
        · exact .inl rfl
        · exact .inr h
    · split at h
      · split at h
        · exact .inr (List.mem_cons_of_mem _ h)
        · rcases List.mem_cons.mp h with rfl | h
          · exact .inl rfl
          · exact .inr (List.mem_cons_of_mem _ h)
      · rcases List.mem_cons.mp h with rfl | h
        · exact .inr (List.mem_cons_self ..)
        · rcases ih h with h | h
          · exact .inl h
          · exact .inr (List.mem_cons_of_mem _ h)

/-- A write inside the buffer lists no offset outside it. -/
theorem write_below {a n : Nat} {v : Byte} {m : Memory} (h : Memory.below m n = true) (ha : a < n) :
    Memory.below (Memory.write m a v) n = true := by
  simp only [Memory.below, List.all_eq_true, decide_eq_true_eq] at h ⊢
  intro c hc
  rcases write_mem hc with e | hm
  · omega
  · exact h c hm

/-- A fetch inside the buffer gives the word of its two bytes. -/
theorem fetchAt_eq {s : State} {p : Nat} (h : 2 * p + 1 < s.n) :
    fetchAt s p = some (wordOfBytes (Memory.read s.ibuf (2 * p)) (Memory.read s.ibuf (2 * p + 1))) := by
  have h0 : 2 * p < s.n := by omega
  simp [fetchAt, memRead, readByte, h, h0]

/-- A fetch reads the buffer and its length only. -/
theorem fetchAt_congr {s t : State} (hb : t.ibuf = s.ibuf) (hn : t.n = s.n) (p : Nat) : fetchAt t p = fetchAt s p := by
  simp [fetchAt, memRead, readByte, hb, hn]

/-- A byte read looks at the buffer and its length only. -/
theorem readByte_congr {s t : State} (hb : t.ibuf = s.ibuf) (hn : t.n = s.n) (a : Nat) : readByte t a = readByte s a := by
  simp [readByte, hb, hn]

/-- The canonical form of the state's buffer depends on the buffer and its length only. -/
theorem State.wf_congr {s t : State} (hb : t.ibuf = s.ibuf) (hn : t.n = s.n) : t.wf = s.wf := by
  simp [State.wf, hb, hn]

end Sys2Proof.Machine
end

