-- ==== Sys2Proof/Laws/Decode.lean ====
section
/-! SUPPORT. The fields of a word as numbers and of an encoding, the two bytes of a word, and the opcode recogniser. -/

namespace Sys2Proof

/-- Concatenation as a number (R7): the left part is the more significant one. -/
theorem append_toNat {n k : Nat} (x : BitVec n) (y : BitVec k) : (x ++ y).toNat = x.toNat * 2 ^ k + y.toNat := by
  rw [BitVec.toNat_append, ← Nat.shiftLeft_add_eq_or_of_lt y.isLt, Nat.shiftLeft_eq]

/-! ### Fields as numbers (R52) -/

theorem opcodeField_toNat (w : Word) : (opcodeField w).toNat = w.toNat / 1024 := by
  have := w.isLt
  simp only [opcodeField, BitVec.extractLsb'_toNat, Nat.shiftRight_eq_div_pow]
  omega

theorem directionField_toNat (w : Word) : (directionField w).toNat = w.toNat / 512 % 2 := by
  simp [directionField, BitVec.extractLsb'_toNat, Nat.shiftRight_eq_div_pow]

theorem wideField_toNat (w : Word) : (wideField w).toNat = w.toNat / 256 % 2 := by
  simp [wideField, BitVec.extractLsb'_toNat, Nat.shiftRight_eq_div_pow]

theorem modeField_toNat (w : Word) : (modeField w).toNat = w.toNat / 64 % 4 := by
  simp [modeField, BitVec.extractLsb'_toNat, Nat.shiftRight_eq_div_pow]

theorem register1Field_toNat (w : Word) : (register1Field w).toNat = w.toNat / 8 % 8 := by
  simp [register1Field, BitVec.extractLsb'_toNat, Nat.shiftRight_eq_div_pow]

theorem register2Field_toNat (w : Word) : (register2Field w).toNat = w.toNat % 8 := by
  simp [register2Field, BitVec.extractLsb'_toNat]

/-! ### Bytes of a word (R32) -/

theorem wordOfBytes_toNat (b0 b1 : Byte) : (wordOfBytes b0 b1).toNat = 256 * b0.toNat + b1.toNat := by
  have h0 := b0.isLt
  have h1 := b1.isLt
  have hs : b0.toNat <<< 8 % 2 ^ 16 = b0.toNat <<< 8 := by
    rw [Nat.shiftLeft_eq]
    omega
  have hv : b1.toNat % 2 ^ 16 = b1.toNat := by omega
  have hu : b0.toNat % 2 ^ 16 = b0.toNat := by omega
  simp only [wordOfBytes, BitVec.toNat_or, BitVec.toNat_shiftLeft, BitVec.toNat_setWidth, hu, hv, hs]
  rw [← Nat.shiftLeft_add_eq_or_of_lt h1, Nat.shiftLeft_eq]
  omega

theorem firstByte_toNat (w : Word) : (firstByte w).toNat = w.toNat / 256 := by
  have := w.isLt
  simp only [firstByte, BitVec.extractLsb'_toNat, Nat.shiftRight_eq_div_pow]
  omega

theorem secondByte_toNat (w : Word) : (secondByte w).toNat = w.toNat % 256 := by
  simp [secondByte, BitVec.extractLsb'_toNat]

/-- A word is made of its own two bytes. -/
@[simp] theorem wordOfBytes_bytes (w : Word) : wordOfBytes (firstByte w) (secondByte w) = w := by
  apply BitVec.eq_of_toNat_eq
  rw [wordOfBytes_toNat, firstByte_toNat, secondByte_toNat]
  omega

/-! ### The recogniser (R72) -/

/-- A word has the MOV opcode exactly when its top six bits are 34. -/
theorem opcodeField_eq_mov {w : Word} : opcodeField w = movPattern ↔ w.toNat / 1024 = 34 := by
  rw [← BitVec.toNat_inj, opcodeField_toNat]
  rfl

theorem recognise_mov {w : Word} (h : w.toNat / 1024 = 34) : recognise (opcodeField w) = some .mov := by
  simp [recognise, opcodeField_eq_mov.mpr h]

theorem recognise_other {w : Word} (h : w.toNat / 1024 ≠ 34) : recognise (opcodeField w) = none := by
  simp [recognise, opcodeField_eq_mov, h]

theorem decodeRecord_other {w : Word} (h : w.toNat / 1024 ≠ 34) : decodeRecord w = .error (.unknownOpcode w) := by
  simp [decodeRecord, recognise_other h]

theorem decodeRecord_mov {w : Word} (h : w.toNat / 1024 = 34) :
    decodeRecord w = .ok (movRecord (directionOf (directionField w)) (wideOf (wideField w)) (modeOf (modeField w))
      (register1Field w) (register2Field w)) := by
  simp [decodeRecord, recognise_mov h, movRecord]

/-! ### Fields of an encoding (R50) -/

variable (d : Direction) (wide : Bool) (m : BitVec 2) (r1 r2 : BitVec 3)

/-- The number of an encoding, field by field. -/
theorem encodeMov_toNat :
    (encodeMov d wide m r1 r2).toNat =
      34 * 1024 + d.bit.toNat * 512 + wide.toNat * 256 + m.toNat * 64 + r1.toNat * 8 + r2.toNat := by
  have hp : movPattern.toNat = 34 := rfl
  have hb : (BitVec.ofBool wide).toNat = wide.toNat := by cases wide <;> rfl
  simp only [encodeMov, append_toNat, hp, hb]
  omega

@[simp] theorem opcodeField_encodeMov : opcodeField (encodeMov d wide m r1 r2) = movPattern := by
  rw [opcodeField_eq_mov, encodeMov_toNat]
  have := d.bit.isLt
  have hw : wide.toNat < 2 := by cases wide <;> decide
  omega

@[simp] theorem directionField_encodeMov : directionField (encodeMov d wide m r1 r2) = d.bit := by
  apply BitVec.eq_of_toNat_eq
  rw [directionField_toNat, encodeMov_toNat]
  have hw : wide.toNat < 2 := by cases wide <;> decide
  omega

@[simp] theorem wideField_encodeMov : wideField (encodeMov d wide m r1 r2) = BitVec.ofBool wide := by
  apply BitVec.eq_of_toNat_eq
  have hb : (BitVec.ofBool wide).toNat = wide.toNat := by cases wide <;> rfl
  rw [wideField_toNat, encodeMov_toNat, hb]
  have hw : wide.toNat < 2 := by cases wide <;> decide
  omega

@[simp] theorem modeField_encodeMov : modeField (encodeMov d wide m r1 r2) = m := by
  apply BitVec.eq_of_toNat_eq
  rw [modeField_toNat, encodeMov_toNat]
  omega

@[simp] theorem register1Field_encodeMov : register1Field (encodeMov d wide m r1 r2) = r1 := by
  apply BitVec.eq_of_toNat_eq
  rw [register1Field_toNat, encodeMov_toNat]
  omega

@[simp] theorem register2Field_encodeMov : register2Field (encodeMov d wide m r1 r2) = r2 := by
  apply BitVec.eq_of_toNat_eq
  rw [register2Field_toNat, encodeMov_toNat]
  omega

@[simp] theorem directionOf_bit : directionOf d.bit = d := by cases d <;> rfl

@[simp] theorem wideOf_ofBool : wideOf (BitVec.ofBool wide) = wide := by cases wide <;> rfl

theorem bit_directionOf (b : BitVec 1) : (directionOf b).bit = b := by revert b; decide

theorem ofBool_wideOf (b : BitVec 1) : BitVec.ofBool (wideOf b) = b := by revert b; decide

end Sys2Proof
end

