-- ==== Sys2Proof/Laws/PerInstr.lean ====
section
/-! SUPPORT. The family `InItsRow`: a well-formed instruction's word lies in the row of spec/opcode_table.json that its
constructor stands for. One lemma per constructor of `Instr`. -/

namespace Sys2Proof.Laws.InItsRow

def Statement (i : Instr) : Prop := i.wf = true → i.tableRow.holds (encode i) = true

/-- The masked bits of a MOV encoding are its opcode and MOD fields (R59). -/
theorem encodeMov_masked (d : Direction) (wide : Bool) (m : BitVec 2) (r1 r2 : BitVec 3) :
    encodeMov d wide m r1 r2 &&& 0xFCC0 = encodeMov .toRegister false m 0 0 := by
  revert r1 r2 m
  cases d <;> cases wide <;> decide

theorem movRegister (d : Direction) (w : Bool) (r1 r2 : BitVec 3) : Statement (.movRegister d w r1 r2) := fun _ => by
  simp only [TableRow.holds, Instr.tableRow, encode, encodeMov_masked]; rfl

theorem movMemory00 (d : Direction) (w : Bool) (r1 r2 : BitVec 3) : Statement (.movMemory00 d w r1 r2) := fun _ => by
  simp only [TableRow.holds, Instr.tableRow, encode, encodeMov_masked]; rfl

theorem movMemory01 (d : Direction) (w : Bool) (r1 r2 : BitVec 3) : Statement (.movMemory01 d w r1 r2) := fun _ => by
  simp only [TableRow.holds, Instr.tableRow, encode, encodeMov_masked]; rfl

theorem movMemory10 (d : Direction) (w : Bool) (r1 r2 : BitVec 3) : Statement (.movMemory10 d w r1 r2) := fun _ => by
  simp only [TableRow.holds, Instr.tableRow, encode, encodeMov_masked]; rfl

theorem illegalBit15 (w : Word) : Statement (.illegalBit15 w) := fun h => h
theorem illegalBit14 (w : Word) : Statement (.illegalBit14 w) := fun h => h
theorem illegalBit13 (w : Word) : Statement (.illegalBit13 w) := fun h => h
theorem illegalBit12 (w : Word) : Statement (.illegalBit12 w) := fun h => h
theorem illegalBit11 (w : Word) : Statement (.illegalBit11 w) := fun h => h
theorem illegalBit10 (w : Word) : Statement (.illegalBit10 w) := fun h => h

end Sys2Proof.Laws.InItsRow
end

