-- ==== Sys2Proof/Laws/Render.lean ====
section
/-! SUPPORT. What a ROM lookup and a rendering can answer, said once. -/

namespace Sys2Proof.Machine

/-- Every selector the decoder makes has a name of two characters (R90). -/
theorem name_of_le {i : Nat} (wide : Bool) (h : i ≤ 7) : ∃ a b, name i wide = .ok [a, b] := by
  have hi : i = 0 ∨ i = 1 ∨ i = 2 ∨ i = 3 ∨ i = 4 ∨ i = 5 ∨ i = 6 ∨ i = 7 := by omega
  rcases hi with rfl | rfl | rfl | rfl | rfl | rfl | rfl | rfl <;> cases wide <;> exact ⟨_, _, rfl⟩

/-- Every other selector raises InvalidRegisterIndex (R90). -/
theorem name_of_gt {i : Nat} (wide : Bool) (h : 7 < i) : name i wide = .error (.invalidRegisterIndex i) := by
  cases wide
  · have hn : narrowNames[i]? = none := List.getElem?_eq_none (by simp only [narrowNames, List.length_cons, List.length_nil]; omega)
    simp [name, hn]
  · have hn : wideNames[i]? = none := List.getElem?_eq_none (by simp only [wideNames, List.length_cons, List.length_nil]; omega)
    simp [name, hn]

/-- What `Render` can answer (R100, R110): UnsupportedMode, the first failing lookup, or the two names' line. -/
theorem render_cases (I : InstructionRecord) :
    (I.mode = .memory ∧ render I = .error .unsupportedMode) ∨
    (I.mode = .register ∧ ∃ i, 7 < i ∧ (i = (operandOrder I).1 ∨ i = (operandOrder I).2) ∧
      render I = .error (.invalidRegisterIndex i)) ∨
    (I.mode = .register ∧ (operandOrder I).1 ≤ 7 ∧ (operandOrder I).2 ≤ 7 ∧
      ∃ n1 n2, name (operandOrder I).1 I.wide = .ok n1 ∧ name (operandOrder I).2 I.wide = .ok n2 ∧
        render I = .ok (formatLine I.opcode n1 n2)) := by
  cases hm : I.mode with
  | memory => exact .inl ⟨rfl, by simp [render, hm]⟩
  | register =>
    refine .inr ?_
    by_cases h1 : (operandOrder I).1 ≤ 7
    · obtain ⟨a1, b1, hn1⟩ := name_of_le I.wide h1
      by_cases h2 : (operandOrder I).2 ≤ 7
      · obtain ⟨a2, b2, hn2⟩ := name_of_le I.wide h2
        exact .inr ⟨rfl, h1, h2, _, _, hn1, hn2, by simp [render, hm, hn1, hn2]⟩
      · exact .inl ⟨rfl, _, Nat.lt_of_not_le h2, .inr rfl,
          by simp [render, hm, hn1, name_of_gt I.wide (Nat.lt_of_not_le h2)]⟩
    · exact .inl ⟨rfl, _, Nat.lt_of_not_le h1, .inl rfl,
        by simp [render, hm, name_of_gt I.wide (Nat.lt_of_not_le h1)]⟩

/-- A record whose selectors are in range renders, or is in memory mode. -/
theorem render_of_wf {I : InstructionRecord} (h : I.wf = true) :
    (I.mode = .memory ∧ render I = .error .unsupportedMode) ∨ (I.mode = .register ∧ ∃ line, render I = .ok line) := by
  simp only [InstructionRecord.wf, Bool.and_eq_true, decide_eq_true_eq] at h
  rcases render_cases I with hmem | ⟨_, i, hi, ho, _⟩ | ⟨hreg, _, _, _, _, _, _, hr⟩
  · exact .inl hmem
  · exfalso
    cases hd : I.direction <;> simp [operandOrder, hd] at ho <;> omega
  · exact .inr ⟨hreg, _, hr⟩

/-- The records of the MOV rows are in range (R11, R57, R58). -/
theorem movRecord_wf (d : Direction) (w : Bool) (m : Mode) (r1 r2 : BitVec 3) : (movRecord d w m r1 r2).wf = true := by
  have h1 := r1.isLt
  have h2 := r2.isLt
  exact Bool.and_eq_true_iff.mpr ⟨decide_eq_true (by show r1.toNat ≤ 7; omega), decide_eq_true (by show r2.toNat ≤ 7; omega)⟩

end Sys2Proof.Machine
end

