-- ==== Sys2Proof/Laws/Step.lean ====
section
/-! SUPPORT. What an instruction and a step can do, said once: every later proof about `exec` or `step` goes through
`exec_eq` and `step_cases`. -/

namespace Sys2Proof.Machine

/-- `Decode` followed by `Render`, for an instruction of the table. -/
def instrOutcome (i : Instr) : Except CoreFault Line := renderDecoded i.record

@[simp] theorem renderDecoded_ok (I : InstructionRecord) : renderDecoded (.ok I) = render I := rfl
@[simp] theorem renderDecoded_error (f : CoreFault) : renderDecoded (.error f) = .error f := rfl
@[simp] theorem conclude_ok (line : Line) (w : Word) (s : State) :
    conclude (.ok line) w s = .next (advance (emit line s)) := rfl
@[simp] theorem conclude_error (f : CoreFault) (w : Word) (s : State) :
    conclude (.error f) w s = .next (abort f w s) := rfl

/-- Every instruction emits its line and advances, or takes the fault entry with its own word. -/
theorem exec_eq (i : Instr) (s : State) : exec i s = conclude (instrOutcome i) (encode i) s := by
  cases i <;> rfl

/-- `exec` always answers a next state, one of these two. -/
theorem exec_cases {i : Instr} {s t : State} (h : exec i s = .next t) :
    (∃ line, instrOutcome i = .ok line ∧ t = advance (emit line s)) ∨
    (∃ f, instrOutcome i = .error f ∧ t = abort f (encode i) s) := by
  rw [exec_eq] at h
  cases ho : instrOutcome i with
  | ok line => exact .inl ⟨line, rfl, by simpa [ho] using h.symm⟩
  | error f => exact .inr ⟨f, rfl, by simpa [ho] using h.symm⟩

/-- The fault an instruction can raise: UnknownOpcode for an illegal word, UnsupportedMode for a memory-mode MOV. -/
theorem instrOutcome_error {i : Instr} {f : CoreFault} (h : instrOutcome i = .error f) :
    f = .unknownOpcode (encode i) ∨ f = .unsupportedMode := by
  cases i
  case movRegister d w r1 r2 =>
    rcases render_of_wf (movRecord_wf d w .register r1 r2) with ⟨_, hr⟩ | ⟨_, line, hr⟩
    · exact .inr (by simpa [instrOutcome, Instr.record, hr] using h.symm)
    · simp [instrOutcome, Instr.record, hr] at h
  case movMemory00 => exact .inr (Except.error.inj h).symm
  case movMemory01 => exact .inr (Except.error.inj h).symm
  case movMemory10 => exact .inr (Except.error.inj h).symm
  case illegalBit15 => exact .inl (Except.error.inj h).symm
  case illegalBit14 => exact .inl (Except.error.inj h).symm
  case illegalBit13 => exact .inl (Except.error.inj h).symm
  case illegalBit12 => exact .inl (Except.error.inj h).symm
  case illegalBit11 => exact .inl (Except.error.inj h).symm
  case illegalBit10 => exact .inl (Except.error.inj h).symm

/-- What the frame of a step can answer as a next state: the end of the input, or what the process makes of the fetched
word; in both cases the machine was Running. -/
theorem stepFrame_cases {p : Word → State → Host.Outcome State Fault Refusal} {s t : State}
    (h : stepFrame p s = .next t) :
    s.st = .running ∧
      ((s.wp = wordCount s ∧ t = finish s) ∨ (s.wp ≠ wordCount s ∧ ∃ w, fetch s = some w ∧ p w s = .next t)) := by
  unfold stepFrame at h
  cases hst : s.st with
  | done => simp [hst] at h
  | fault => simp [hst] at h
  | running =>
    refine ⟨rfl, ?_⟩
    simp only [hst] at h
    split at h
    · rename_i hw
      exact .inl ⟨hw, by simpa using h.symm⟩
    · rename_i hw
      split at h
      · rename_i w hf
        exact .inr ⟨hw, w, hf, h⟩
      · simp at h

/-- The frame of a step on a fetched word. -/
theorem stepFrame_process {p : Word → State → Host.Outcome State Fault Refusal} {s : State} {w : Word}
    (hst : s.st = .running) (hw : s.wp ≠ wordCount s) (hf : fetch s = some w) : stepFrame p s = p w s := by
  simp [stepFrame, hst, hw, hf]

/-- What a step can do. -/
theorem step_cases {s t : State} (h : step s = .next t) :
    s.st = .running ∧
      ((s.wp = wordCount s ∧ t = finish s) ∨
       (s.wp ≠ wordCount s ∧ ∃ w, fetch s = some w ∧
         ((∃ line, instrOutcome (decodeWord w) = .ok line ∧ t = advance (emit line s)) ∨
          (∃ f, instrOutcome (decodeWord w) = .error f ∧ t = abort f (encode (decodeWord w)) s)))) := by
  obtain ⟨hst, h⟩ := stepFrame_cases h
  refine ⟨hst, ?_⟩
  rcases h with h | ⟨hw, w, hf, he⟩
  · exact .inl h
  · exact .inr ⟨hw, w, hf, exec_cases he⟩

/-- Below NW the fetch answers a word. -/
theorem fetch_of_lt {s : State} (h : s.wp < wordCount s) : ∃ w, fetch s = some w :=
  ⟨_, fetchAt_eq (by unfold wordCount at h; omega)⟩

end Sys2Proof.Machine
end

