-- ==== Sys2Proof/Tests/Slice0.lean ====
section
/-! SUPPORT. The model's own tests. Every expected value is taken from spec/95_test_vectors.md or worked out by hand from
a numbered rule, never from the model. After the tests, a concrete witness for the hypotheses of each statement of
Certificates/Slice0/Obligations.lean. -/

namespace Sys2Proof.Tests

open Sys2Proof.Machine

/-- The next state of an outcome, if it is one. -/
def nextOf (o : Host.Outcome State Fault Refusal) : Option State :=
  match o with
  | .next s => some s
  | .fault _ => none
  | .refused _ => none

/-- The fault of an outcome, if it is one. -/
def faultOf (o : Host.Outcome State Fault Refusal) : Option Fault :=
  match o with
  | .fault f => some f
  | .next _ => none
  | .refused _ => none

/-- What a test looks at after one step. -/
structure View where
  st    : Status
  wp    : Nat
  fkind : FaultKind
  fword : Word
  fpos  : Nat
  out   : List Line
deriving DecidableEq, Repr

def view (s : State) : View := ⟨s.st, s.wp, s.fkind, s.fword, s.fpos, s.out⟩

/-- A record, written shortly. -/
def mkRecord (d : Direction) (w : Bool) (m : Mode) (r1 r2 : Nat) : InstructionRecord :=
  { opcode := .mov, direction := d, wide := w, mode := m, register1 := r1, register2 := r2 }

/-! ### WellFormed: one ill-formed term for each check (R59 rows, R11) -/

theorem test_wf_refuses_bit15 : (Instr.illegalBit15 0x88C0).wf = false := by decide
theorem test_wf_refuses_bit14 : (Instr.illegalBit14 0x88C0).wf = false := by decide
theorem test_wf_refuses_bit13 : (Instr.illegalBit13 0x88C0).wf = false := by decide
theorem test_wf_refuses_bit12 : (Instr.illegalBit12 0x88C0).wf = false := by decide
theorem test_wf_refuses_bit11 : (Instr.illegalBit11 0x88C0).wf = false := by decide
theorem test_wf_refuses_bit10 : (Instr.illegalBit10 0x88C0).wf = false := by decide
theorem test_wf_refuses_first_selector : (mkRecord .toRegister true .register 8 0).wf = false := by decide
theorem test_wf_refuses_second_selector : (mkRecord .toRegister true .register 0 9).wf = false := by decide
theorem test_wf_accepts_highest_selectors : (mkRecord .fromRegister true .register 7 7).wf = true := by decide

/-! ### Decode: words written out from the spec (95_test_vectors.md section 2 and R82's nearest misses) -/

theorem test_decode_scenario_a_corrected : decodeWord 0b1000101111011000 = .movRegister .fromRegister true 3 0 := by decide
theorem test_decode_scenario_b : decodeWord 0b1000100011001000 = .movRegister .toRegister false 1 0 := by decide
theorem test_decode_D9 : decodeWord 0b1000100010000000 = .movMemory10 .toRegister false 0 0 := by decide
theorem test_decode_D10 : decodeWord 0b1000101101000110 = .movMemory01 .fromRegister true 0 6 := by decide
theorem test_decode_D7 : decodeWord 0b1000100000000000 = .movMemory00 .toRegister false 0 0 := by decide
theorem test_decode_bit15 : decodeWord 0b0000100011000000 = .illegalBit15 0x08C0 := by decide
theorem test_decode_bit14 : decodeWord 0b1100100011000000 = .illegalBit14 0xC8C0 := by decide
theorem test_decode_bit13 : decodeWord 0b1010100011000000 = .illegalBit13 0xA8C0 := by decide
theorem test_decode_bit12 : decodeWord 0b1001100011000000 = .illegalBit12 0x98C0 := by decide
theorem test_decode_bit11 : decodeWord 0b1000000011000000 = .illegalBit11 0x80C0 := by decide
theorem test_decode_bit10 : decodeWord 0b1000110011000000 = .illegalBit10 0x8CC0 := by decide
/-- D25: the bytes of 0x88D8 exchanged are an unknown opcode (R32). -/
theorem test_decode_swapped_bytes : decode [0xD8#8, 0x88#8] = .ok (.illegalBit14 0xD888, []) := by decide
theorem test_decode_one_byte : decode [0x88#8] = .error .truncated := by decide
theorem test_decode_table_word : decodeTableWord 16 0x88C8 = some (.movRegister .toRegister false 1 0) := by decide
/-- D11 of 95_test_vectors.md: the record of a memory-mode word keeps every other field. -/
theorem test_record_D11 : decodeRecord 0x8BBF = .ok (mkRecord .fromRegister true .memory 7 7) := by decide

/-! ### The renderer on hand-made records (95_test_vectors.md section 3.2) -/

theorem test_render_N3 : render (mkRecord .toRegister false .register 4 7) = .ok ['m', 'o', 'v', ' ', 'a', 'h', ',', ' ', 'b', 'h'] := by decide
theorem test_render_N5 : render (mkRecord .fromRegister false .register 5 6) = .ok ['m', 'o', 'v', ' ', 'd', 'h', ',', ' ', 'c', 'h'] := by decide
theorem test_render_N12 : render (mkRecord .fromRegister false .register 8 9) = .error (.invalidRegisterIndex 9) := by decide
theorem test_render_N13 : render (mkRecord .toRegister true .memory 8 9) = .error .unsupportedMode := by decide

/-! ### One step of each instruction (95_test_vectors.md sections 4 to 6) -/

theorem test_mov_register_scenario_a :
    (nextOf (step (startRun [0x8B, 0xD8]))).map view =
      some ⟨.running, 1, .noFault, 0, 0, [['m', 'o', 'v', ' ', 'a', 'x', ',', ' ', 'b', 'x']]⟩ := by decide
/-- 0x89D8, the literal of the source's Scenario A as printed, renders `mov bx, ax` (90_conflicts.md C1). -/
theorem test_mov_register_literal_as_printed :
    (nextOf (step (startRun [0x89, 0xD8]))).map State.out =
      some [['m', 'o', 'v', ' ', 'b', 'x', ',', ' ', 'a', 'x']] := by decide
theorem test_mov_memory00 :
    (nextOf (step (startRun [0x88, 0x00]))).map view = some ⟨.fault, 0, .unsupportedMode, 0x8800, 0, []⟩ := by decide
theorem test_mov_memory01 :
    (nextOf (step (startRun [0x8B, 0x7F]))).map view = some ⟨.fault, 0, .unsupportedMode, 0x8B7F, 0, []⟩ := by decide
theorem test_mov_memory10 :
    (nextOf (step (startRun [0x88, 0x80]))).map view = some ⟨.fault, 0, .unsupportedMode, 0x8880, 0, []⟩ := by decide
theorem test_illegal_bit15 :
    (nextOf (step (startRun [0x00, 0x00]))).map view = some ⟨.fault, 0, .unknownOpcode, 0x0000, 0, []⟩ := by decide
theorem test_illegal_bit14 :
    (nextOf (step (startRun [0xFF, 0xFF]))).map view = some ⟨.fault, 0, .unknownOpcode, 0xFFFF, 0, []⟩ := by decide
theorem test_illegal_bit13 :
    (nextOf (step (startRun [0xB8, 0xC0]))).map view = some ⟨.fault, 0, .unknownOpcode, 0xB8C0, 0, []⟩ := by decide
theorem test_illegal_bit12 :
    (nextOf (step (startRun [0x98, 0xC0]))).map view = some ⟨.fault, 0, .unknownOpcode, 0x98C0, 0, []⟩ := by decide
theorem test_illegal_bit11 :
    (nextOf (step (startRun [0x87, 0xFF]))).map view = some ⟨.fault, 0, .unknownOpcode, 0x87FF, 0, []⟩ := by decide
theorem test_illegal_bit10 :
    (nextOf (step (startRun [0x8C, 0x00]))).map view = some ⟨.fault, 0, .unknownOpcode, 0x8C00, 0, []⟩ := by decide
/-- R123: the empty buffer and the single byte (programs P5, P6) end at their first step. -/
theorem test_empty_buffer : (nextOf (step (startRun []))).map view = some ⟨.done, 0, .noFault, 0, 0, []⟩ := by decide
theorem test_single_byte : (nextOf (step (startRun [0x88]))).map view = some ⟨.done, 0, .noFault, 0, 0, []⟩ := by decide
/-- R120: no step from Done. -/
theorem test_no_step_from_done : faultOf (step { startRun [] with st := .done }) = some .runDone := by decide
theorem test_no_step_from_fault : faultOf (step { startRun [] with st := .fault }) = some .runFaulted := by decide
theorem test_no_fetch_outside : faultOf (step { startRun [] with wp := 1 }) = some .fetchOutsideBuffer := by decide
/-- A word placed over an odd buffer's last byte is the next one run (log entry 4). -/
theorem test_placed_word :
    (nextOf (step ({ startRun [0x88, 0xC8, 0x01] with wp := 1 }.withFetchWord 16 0x8BD8))).map State.out =
      some [['m', 'o', 'v', ' ', 'a', 'x', ',', ' ', 'b', 'x']] := by decide

/-! ### The ports and BitPacker -/

/-- S1: the bytes of `mov ax, bx` (R108). -/
theorem test_line_bits :
    lineBits ['m', 'o', 'v', ' ', 'a', 'x', ',', ' ', 'b', 'x'] = 0x6D6F762061782C206278#80 := by decide
theorem test_word_ports :
    wordPorts 0x8BD8 =
      some { errUnsupportedMode := 0, errInvalidIndex := 0, line := some 0x6D6F762061782C206278#80 } := by decide
/-- S4, Scenario C (R144). -/
theorem test_pack_scenario_c : pack ['0', '1', '0', '0', '1', '0', '0', '0', '1'] = [0x48#8] := by decide

/-! ### Witnesses for the hypotheses of the statements -/

theorem witness_wf_instructions :
    (Instr.movRegister .fromRegister true 7 7).wf = true ∧ (Instr.illegalBit10 0x8C00).wf = true ∧
    encode (.illegalBit10 0x8C00) = 0x8C00 := by decide

/-- The top six bits just below, at both ends of, and just above the MOV range. -/
theorem witness_opcode_boundaries :
    (0x87FF : Word).toNat / 1024 ≠ 34 ∧ (0x8800 : Word).toNat / 1024 = 34 ∧ (0x8BFF : Word).toNat / 1024 = 34 ∧
    (0x8C00 : Word).toNat / 1024 ≠ 34 := by decide

/-- Two words that agree on the opcode and on every field but REG. -/
theorem witness_field_independence :
    (0x88C0 : Word).toNat / 1024 = (0x88F8 : Word).toNat / 1024 ∧
    decodeRecord 0x88C0 = .ok (mkRecord .toRegister false .register 0 0) ∧
    decodeRecord 0x88F8 = .ok (mkRecord .toRegister false .register 7 0) ∧
    (0x88C0 : Word).toNat / 512 % 2 = (0x88F8 : Word).toNat / 512 % 2 ∧
    (0x88C0 : Word).toNat / 256 % 2 = (0x88F8 : Word).toNat / 256 % 2 ∧
    (0x88C0 : Word).toNat / 64 % 4 = (0x88F8 : Word).toNat / 64 % 4 ∧
    (0x88C0 : Word).toNat / 8 % 8 = (0x8AC7 : Word).toNat / 8 % 8 ∧
    (0x88C0 : Word).toNat % 8 = (0x88F8 : Word).toNat % 8 := by decide

theorem witness_three_outcomes :
    ((0x8880 : Word).toNat / 1024 = 34 ∧ (0x8880 : Word).toNat / 64 % 4 ≠ 3) ∧
    ((0x88C0 : Word).toNat / 1024 = 34 ∧ (0x88C0 : Word).toNat / 64 % 4 = 3) := by decide

theorem witness_rom_indices : 7 < 8 ∧ name 7 true = .ok ['d', 'i'] ∧ name 7 false = .ok ['b', 'h'] := by decide

theorem witness_rom_ports : 7 < (8#4).toNat ∧ (7#4).toNat ≤ 7 := by decide

/-- A record and operand numbers for each clause of the renderer's statement. -/
theorem witness_render_clauses :
    (mkRecord .toRegister true .memory 0 0).mode = .memory ∧
    (mkRecord .toRegister true .register 8 0).mode = .register ∧ (mkRecord .toRegister true .register 8 0).register1 = 8 ∧
    (mkRecord .fromRegister true .register 8 7).mode = .register ∧ (mkRecord .fromRegister true .register 8 7).register2 = 7 ∧
    (mkRecord .fromRegister true .register 7 7).direction = .fromRegister := by decide

theorem witness_rendered_line :
    render (mkRecord .toRegister true .register 0 3) = .ok ['m', 'o', 'v', ' ', 'a', 'x', ',', ' ', 'b', 'x'] := by decide

/-- The two name columns of the completion statement exist. -/
theorem witness_mov_register_columns :
    ∃ W N : Nat → Line,
      W = (fun i => [['a', 'x'], ['c', 'x'], ['d', 'x'], ['b', 'x'], ['s', 'p'], ['b', 'p'], ['s', 'i'], ['d', 'i']].getD i []) ∧
      N = (fun i => [['a', 'l'], ['c', 'l'], ['d', 'l'], ['b', 'l'], ['a', 'h'], ['c', 'h'], ['d', 'h'], ['b', 'h']].getD i []) :=
  ⟨_, _, rfl, rfl⟩

/-- An instruction and its MOD for each of the three rows. -/
theorem witness_mov_memory :
    (∃ (i : Instr) (mm : Nat), i = .movMemory00 .toRegister false 0 0 ∧ mm = 0) ∧
    (∃ (i : Instr) (mm : Nat), i = .movMemory01 .fromRegister true 0 6 ∧ mm = 1) ∧
    ∃ (i : Instr) (mm : Nat), i = .movMemory10 .fromRegister true 7 7 ∧ mm = 2 :=
  ⟨⟨_, _, rfl, rfl⟩, ⟨_, _, rfl, rfl⟩, _, _, rfl, rfl⟩

/-- A well-formed instruction of each of the six rows, the words next to the MOV range among them. -/
theorem witness_illegal :
    (Instr.illegalBit15 0x7FFF).wf = true ∧ (Instr.illegalBit14 0xFFFF).wf = true ∧
    (Instr.illegalBit13 0xBFFF).wf = true ∧ (Instr.illegalBit12 0x9FFF).wf = true ∧
    (Instr.illegalBit11 0x87FF).wf = true ∧ (Instr.illegalBit10 0x8C00).wf = true := by decide

theorem witness_mov_register_frame :
    ∃ s t : State, exec (.movRegister .toRegister true 0 3) s = .next t ∧ 0 < s.out.length :=
  ⟨{ State.reset with out := [['m']] }, _, rfl, by decide⟩

theorem witness_faulting_frame :
    ∃ t : State, Instr.movMemory01 .toRegister true 0 3 ∈ [Instr.movMemory00 .toRegister true 0 3, .movMemory01 .toRegister true 0 3] ∧
      exec (.movMemory01 .toRegister true 0 3) State.reset = .next t := ⟨_, by decide, rfl⟩

theorem witness_fault_entry :
    render (mkRecord .toRegister true .memory 0 0) = .error .unsupportedMode ∧
    render (mkRecord .toRegister true .register 8 0) = .error (.invalidRegisterIndex 8) ∧
    render (mkRecord .toRegister true .register 0 9) = .error (.invalidRegisterIndex 9) := by decide

theorem witness_step_runs :
    (startRun [0x8B, 0xD8]).st = .running ∧ (startRun [0x8B, 0xD8]).wp < wordCount (startRun [0x8B, 0xD8]) ∧
    readByte (startRun [0x8B, 0xD8]) 0 = some 0x8B ∧ readByte (startRun [0x8B, 0xD8]) 1 = some 0xD8 ∧
    decode [0x8B#8, 0xD8#8] = .ok (.movRegister .fromRegister true 3 0, []) := by decide

/-- A word for each arm of R121. -/
theorem witness_step_arms :
    fetch (startRun [0x8C, 0xD8]) = some 0x8CD8 ∧ decodeRecord 0x8CD8 = .error (.unknownOpcode 0x8CD8) ∧
    fetch (startRun [0x8B, 0x46]) = some 0x8B46 ∧ decodeRecord 0x8B46 = .ok (mkRecord .fromRegister true .memory 0 6) ∧
    render (mkRecord .fromRegister true .memory 0 6) = .error .unsupportedMode ∧
    fetch (startRun [0x88, 0xC8]) = some 0x88C8 ∧ decodeRecord 0x88C8 = .ok (mkRecord .toRegister false .register 1 0) ∧
    render (mkRecord .toRegister false .register 1 0) = .ok ['m', 'o', 'v', ' ', 'c', 'l', ',', ' ', 'a', 'l'] := by decide

/-- The last word of an even and of an odd buffer. -/
theorem witness_fetch_boundary :
    (startRun [0x88, 0xC8]).wp < wordCount (startRun [0x88, 0xC8]) ∧
    (startRun [0x88, 0xC8, 0xFF]).wp < wordCount (startRun [0x88, 0xC8, 0xFF]) ∧
    ¬ (startRun [0xFF]).wp < wordCount (startRun [0xFF]) := by decide

theorem witness_end_of_input :
    (startRun []).st = .running ∧ (startRun []).wp = (startRun []).n / 2 ∧ (startRun [0x88]).wp = (startRun [0x88]).n / 2 := by
  decide

theorem witness_not_running : ({ startRun [] with st := .done } : State).st ≠ .running := by decide

/-- Steps that emit, that fault and that end the run, for the statements about every step. -/
theorem witness_steps :
    (nextOf (step (startRun [0x88, 0xC8]))).map State.wp = some 1 ∧
    (nextOf (step (startRun [0x00, 0x00]))).map State.st = some .fault ∧
    (nextOf (step (startRun []))).map State.st = some .done := by decide

/-- Two states at different positions that fetch the same word. -/
theorem witness_independence :
    fetch (startRun [0x88, 0xC8]) = fetch { startRun [0x00, 0x00, 0x88, 0xC8] with wp := 1 } ∧
    (nextOf (step { startRun [0x00, 0x00, 0x88, 0xC8] with wp := 1 })).isSome = true := by decide

theorem witness_run_invariant : RunInv (startRun [0x88, 0xC8]) ∧ (startRun [0x88, 0xC8]).wf = true ∧
    wordCount (startRun [0x88, 0xC8]) < 2 ^ 1 ∧ ∃ t, step (startRun [0x88, 0xC8]) = .next t :=
  ⟨⟨by decide, by decide, fun k h => absurd h (Nat.not_lt_zero k), by decide, fun h => Status.noConfusion h,
    fun h => Status.noConfusion h⟩, by decide, by decide, _, rfl⟩

/-- The invariant's clauses about a faulted state can be met together. -/
theorem witness_run_invariant_fault :
    RunInv { startRun [0x00, 0x00] with st := .fault, fkind := .unknownOpcode } :=
  ⟨by decide, by decide, fun k h => absurd h (Nat.not_lt_zero k), by decide,
    fun _ => ⟨rfl, by decide, by decide, .unknownOpcode 0, by decide, rfl⟩, fun h => Status.noConfusion h⟩

theorem witness_run_can_start : (startRun [0x88]).st = .running ∧ (startRun [0x88]).wp ≤ wordCount (startRun [0x88]) := by
  decide

/-- Both ends of the closed form: program P7's fault at the first word, and a buffer that runs to Done. -/
theorem witness_closed_form :
    (closedForm 0 (wordsOf [0x00, 0x00, 0x88, 0xC8])).2 = some (0, 0x0000, .unknownOpcode 0x0000) ∧
    (closedForm 0 (wordsOf [0x88, 0xC8])).2 = none := by decide

/-- A run with a line, one that faults and one that ends with Done. -/
theorem witness_ends_of_runs :
    (endOfRun (startRun [0x88, 0xC8])).out[0]? = some ['m', 'o', 'v', ' ', 'c', 'l', ',', ' ', 'a', 'l'] ∧
    (endOfRun (startRun [0x88, 0xC8])).st = .done ∧ (endOfRun (startRun [0x00, 0x00])).st = .fault := by decide

theorem witness_even_length : ([0x88#8, 0xC8#8] : List Byte).length % 2 = 0 ∧ ([] : List Byte).length % 2 = 0 := by decide

theorem witness_faulting_bytes : wordOutcome (wordOfBytes 0x8B 0x46) = .error .unsupportedMode := by decide

theorem witness_first_word :
    fetchAt (startRun [0x88, 0xC8]) 0 = some 0x88C8 ∧ wordCount (startRun [0x88]) = 0 := by decide

theorem witness_canonical :
    Memory.wf [(0, 0x88#8), (1, 0xC8#8)] = true ∧ Memory.wf [(1, 0x00#8)] = false ∧
    Memory.wf [(1, 0x88#8), (0, 0xC8#8)] = false := by decide

theorem witness_placed : ∃ t, (startRun [0x88]).wf = true ∧ t = (startRun [0x88]).withFetchWord 16 (0x8BD8 : Word).toNat :=
  ⟨_, by decide, rfl⟩

/-- A value of the host's parameters, and a state for each of the three ends. -/
theorem witness_host : ∃ p : Config.HostParams, p.exitCodeFail = 1 :=
  ⟨{ lineTerm := [], exitCodeFail := 1, exitCodeFail_ne_zero := by decide, diagFormat := fun _ _ _ _ => [] }, rfl⟩

theorem witness_ports :
    wordOutcome 0x88C8 = .ok ['m', 'o', 'v', ' ', 'c', 'l', ',', ' ', 'a', 'l'] ∧
    wordOutcome 0x8B46 = .error .unsupportedMode ∧ wordOutcome 0x8CD8 = .error (.unknownOpcode 0x8CD8) := by decide

/-- The eighth bit of the one byte of Scenario C. -/
theorem witness_pack : 0 < (pack ['0', '1', '0', '0', '1', '0', '0', '0']).length ∧ 7 < 8 := by decide

/-- R145's text `100010 0 0 11 001 000`. -/
theorem witness_packed_word :
    packBits ['1', '0', '0', '0', '1', '0', ' ', '0', ' ', '0', ' ', '1', '1', ' ', '0', '0', '1', ' ', '0', '0', '0'] =
      (List.range 16).map (fun j => (0x88C8 : Word).getLsbD (15 - j)) := by decide

end Sys2Proof.Tests
end

section
/-! The fetch below NW (spec/20_memory.md R31 to R33). -/

namespace Sys2Proof.Machine

/-- R19: below N the byte at an offset is the one the buffer holds there. -/
theorem readByte_of_lt {s : State} {j : Nat} (h : j < s.n) : readByte s j = some (Memory.read s.ibuf j) := by
  simp [readByte, h]

/-- R33: both bytes of a word below NW are inside the buffer. -/
theorem secondOffset_lt_of_lt_wordCount {s : State} {p : Nat} (h : p < wordCount s) : 2 * p + 1 < s.n := by
  unfold wordCount at h
  omega

/-- Settles O23: the fetch answers the word of the two bytes at `wp`, and its number is theirs in big-endian order. -/
theorem fetchIsBigEndian : Obligations.FetchIsBigEndian := by
  intro s hwp
  have hsecond : 2 * s.wp + 1 < s.n := secondOffset_lt_of_lt_wordCount hwp
  have hfirst : 2 * s.wp < s.n := Nat.lt_of_succ_lt hsecond
  exact ⟨_, _, _, readByte_of_lt hfirst, readByte_of_lt hsecond, fetchAt_eq hsecond, wordOfBytes_toNat _ _⟩

end Sys2Proof.Machine
end

section
/-! Every word's decoding and outcome in numbers (spec/40_decoder.md R76, R79). -/

namespace Sys2Proof.Machine

/-! ### Field values as numbers (R54 to R56) -/

/-- R54: the polarity of the D bit, bit 9. -/
theorem directionOf_directionField (w : Word) :
    directionOf (directionField w) = if w.toNat / 512 % 2 = 0 then .toRegister else .fromRegister := by
  simp [directionOf, ← BitVec.toNat_inj, directionField_toNat]

/-- R55: wide is a 1 in bit 8. -/
theorem wideOf_wideField (w : Word) : wideOf (wideField w) = decide (w.toNat / 256 % 2 = 1) := by
  simp [wideOf, ← BitVec.toNat_inj, wideField_toNat]

/-- R56: Register is 3 in bits 7 to 6. -/
theorem modeOf_modeField (w : Word) :
    modeOf (modeField w) = if w.toNat / 64 % 4 = 3 then .register else .memory := by
  simp [modeOf, ← BitVec.toNat_inj, modeField_toNat]

/-- Settles O5: the opcode test fails with UnknownOpcode, or the record is made of the six fields as numbers. -/
theorem decodeReadsEachFieldByPosition : Obligations.DecodeReadsEachFieldByPosition := by
  intro w
  refine ⟨decodeRecord_other, fun hop => ?_⟩
  rw [decodeRecord_mov hop, movRecord, directionOf_directionField, wideOf_wideField, modeOf_modeField,
    register1Field_toNat, register2Field_toNat]

/-! ### What a word ends in (R60, R61, R80) -/

/-- R81: a memory-mode record renders to UnsupportedMode, whatever its other fields hold. -/
theorem render_of_memory {I : InstructionRecord} (h : I.mode = .memory) : render I = .error .unsupportedMode := by
  simp [render, h]

/-- R80: a register-mode record with selectors in range has a line. -/
theorem render_of_register {I : InstructionRecord} (hwf : I.wf = true) (h : I.mode = .register) :
    ∃ line, render I = .ok line := by
  rcases render_of_wf hwf with ⟨hmem, _⟩ | ⟨_, hline⟩
  · simp [h] at hmem
  · exact hline

/-- R11: a well-formed record's selectors are at most 7. -/
theorem wf_iff_selectors_le {I : InstructionRecord} : I.wf = true ↔ I.register1 ≤ 7 ∧ I.register2 ≤ 7 := by
  simp [InstructionRecord.wf]

/-- A word the decoder turns away ends in the decoder's fault. -/
theorem wordOutcome_of_error {w : Word} {f : CoreFault} (h : decodeRecord w = .error f) : wordOutcome w = .error f := by
  rw [wordOutcome, h, renderDecoded_error]

/-- A decoded word ends in what the renderer makes of its record. -/
theorem wordOutcome_of_ok {w : Word} {I : InstructionRecord} (h : decodeRecord w = .ok I) : wordOutcome w = render I := by
  rw [wordOutcome, h, renderDecoded_ok]

/-- A word with the MOV opcode decodes to a well-formed record, whose mode is Register exactly for MOD = 11. -/
theorem decodeRecord_mov_wf {w : Word} (hop : w.toNat / 1024 = 34) :
    ∃ I, decodeRecord w = .ok I ∧ I.wf = true ∧ I.mode = if w.toNat / 64 % 4 = 3 then .register else .memory :=
  ⟨_, decodeRecord_mov hop, movRecord_wf _ _ _ _ _, modeOf_modeField w⟩

/-- Settles O9: the opcode test and then the mode of the decoded record tell the three outcomes apart. -/
theorem everyWordHasOneOfThreeOutcomes : Obligations.EveryWordHasOneOfThreeOutcomes := by
  intro w
  refine ⟨fun hop => ?_, fun hop hmod => ?_, fun hop hmod => ?_⟩
  · have hdec := decodeRecord_other hop
    exact ⟨hdec, wordOutcome_of_error hdec⟩
  · obtain ⟨I, hdec, _, hmode⟩ := decodeRecord_mov_wf hop
    rw [if_neg hmod] at hmode
    exact ⟨⟨I, hdec, hmode⟩, (wordOutcome_of_ok hdec).trans (render_of_memory hmode)⟩
  · obtain ⟨I, hdec, hwf, hmode⟩ := decodeRecord_mov_wf hop
    rw [if_pos hmod] at hmode
    obtain ⟨h1, h2⟩ := wf_iff_selectors_le.mp hwf
    exact ⟨⟨I, hdec, hmode, h1, h2⟩, by simpa only [wordOutcome_of_ok hdec] using render_of_register hwf hmode⟩

end Sys2Proof.Machine
end

section
/-! The sixteen names of the ROM (spec/41_register_name_rom.md R90 to R94). -/

namespace Sys2Proof.Machine

/-- R90: an index that has a name is at most 7. -/
theorem le_of_name_ok {i : Nat} {wide : Bool} {n : Line} (h : name i wide = .ok n) : i ≤ 7 := by
  by_contra hi
  simp [name_of_gt wide (Nat.lt_of_not_le hi)] at h

/-- R90: every name has two characters. -/
theorem length_of_name_ok {i : Nat} {wide : Bool} {n : Line} (h : name i wide = .ok n) :
    n.length = Config.nameChars := by
  obtain ⟨a, b, hab⟩ := name_of_le wide (le_of_name_ok h)
  obtain rfl : [a, b] = n := Except.ok.inj (hab.symm.trans h)
  rfl

/-- R94: a lookup answers exactly the entry of its width's column, and no computed name. -/
theorem name_ok_iff {i : Nat} {wide : Bool} {n : Line} :
    name i wide = .ok n ↔ (if wide then wideNames else narrowNames)[i]? = some n := by
  unfold name
  cases (if wide then wideNames else narrowNames)[i]? <;> simp

/-- R92: a name stands at the ROM address of its width and index, `8 * wide + i`, of the two columns in ROM order. -/
theorem columns_getElem?_of_name_ok {i : Nat} {wide : Bool} {n : Line} (h : name i wide = .ok n) :
    (narrowNames ++ wideNames)[8 * wide.toNat + i]? = some n := by
  have hi := le_of_name_ok h
  rw [name_ok_iff] at h
  cases wide with
  | false => simpa [List.getElem?_append_left (show i < narrowNames.length from Nat.lt_succ_of_le hi)] using h
  | true =>
    exact (List.getElem?_append_right (show narrowNames.length ≤ 8 + i from Nat.le_add_right _ _)).trans
      (by simpa [narrowNames] using h)

/-- R91: no name occurs twice in the two columns. -/
theorem columns_nodup : (narrowNames ++ wideNames).Nodup := by decide

/-- R92: the top bit of a ROM address tells the width. -/
theorem width_eq_of_toNat_eq : ∀ v w : Bool, v.toNat = w.toNat → v = w := by decide

/-- R91: a name determines its index and its width, since its ROM address is the only place it stands. -/
theorem name_ok_inj {i j : Nat} {v w : Bool} {n : Line} (hi : name i v = .ok n) (hj : name j w = .ok n) :
    i = j ∧ v = w := by
  have hgi := columns_getElem?_of_name_ok hi
  have hgj := columns_getElem?_of_name_ok hj
  have hlt := (List.getElem?_eq_some_iff.mp hgi).1
  have haddr : 8 * v.toNat + i = 8 * w.toNat + j := (List.getElem?_inj hlt columns_nodup).mp (hgi.trans hgj.symm)
  have hile := le_of_name_ok hi
  have hjle := le_of_name_ok hj
  have hvw : v.toNat = w.toNat := by omega
  exact ⟨by omega, width_eq_of_toNat_eq v w hvw⟩

/-- Settles O10: the sixteen lookups are read off the columns; the general clauses are the lookup's own lemmas. -/
theorem romNamesAreTheTable : Obligations.RomNamesAreTheTable := by
  refine ⟨rfl, rfl, rfl, rfl, rfl, rfl, rfl, rfl, rfl, rfl, rfl, rfl, rfl, rfl, rfl, rfl, ?_, ?_, ?_⟩
  · exact fun _ wide hi => name_of_gt wide hi
  · exact fun _ _ _ h => ⟨le_of_name_ok h, length_of_name_ok h⟩
  · exact fun _ _ _ _ _ hi hj => name_ok_inj hi hj

end Sys2Proof.Machine
end

section
/-! The renderer's checks in their order and the line it puts together (spec/42_renderer.md R100 to R105). -/

namespace Sys2Proof.Machine

/-- R102: the direction alone decides which of the two selectors is the destination. -/
theorem operandOrder_eq {I : InstructionRecord} {first second : Nat}
    (hto : I.direction = .toRegister → first = I.register1 ∧ second = I.register2)
    (hfrom : I.direction = .fromRegister → first = I.register2 ∧ second = I.register1) :
    operandOrder I = (first, second) := by
  cases hd : I.direction with
  | toRegister =>
    obtain ⟨rfl, rfl⟩ := hto hd
    simp [operandOrder, hd]
  | fromRegister =>
    obtain ⟨rfl, rfl⟩ := hfrom hd
    simp [operandOrder, hd]

/-- R104 and R105: the one mnemonic is MOV, so every line begins with `mov` and a space. -/
theorem formatLine_eq (op : Opcode) (n1 n2 : Line) :
    formatLine op n1 n2 = ['m', 'o', 'v', ' '] ++ n1 ++ [',', ' '] ++ n2 := by
  cases op
  rfl

section
variable {I : InstructionRecord} {first second : Nat}

/-- R100: the first operand's lookup stops the rendering before the second's is made. -/
theorem render_of_first_gt (hmode : I.mode = .register) (hord : operandOrder I = (first, second))
    (h1 : 7 < first) : render I = .error (.invalidRegisterIndex first) := by
  simp [render, hmode, hord, name_of_gt I.wide h1]

/-- R100: the second operand's lookup stops the rendering of a record whose first operand has a name. -/
theorem render_of_second_gt (hmode : I.mode = .register) (hord : operandOrder I = (first, second))
    (h1 : first ≤ 7) (h2 : 7 < second) : render I = .error (.invalidRegisterIndex second) := by
  obtain ⟨a, b, hn1⟩ := name_of_le I.wide h1
  simp [render, hmode, hord, hn1, name_of_gt I.wide h2]

/-- R100 and R104: two names of the one width make the line, destination first. -/
theorem render_of_names {n1 n2 : Line} (hmode : I.mode = .register) (hord : operandOrder I = (first, second))
    (hn1 : name first I.wide = .ok n1) (hn2 : name second I.wide = .ok n2) :
    render I = .ok (formatLine I.opcode n1 n2) := by
  simp [render, hmode, hord, hn1, hn2]

end

/-- Settles O12: with the operands put in order, each clause is the renderer's answer at the check it stops at. -/
theorem renderChecksThenOrdersOperands : Obligations.RenderChecksThenOrdersOperands := by
  intro I
  refine ⟨render_of_memory, fun first second hto hfrom hmode => ?_⟩
  have hord : operandOrder I = (first, second) := operandOrder_eq hto hfrom
  refine ⟨render_of_first_gt hmode hord, render_of_second_gt hmode hord, fun h1 h2 => ?_⟩
  obtain ⟨a1, b1, hn1⟩ := name_of_le I.wide h1
  obtain ⟨a2, b2, hn2⟩ := name_of_le I.wide h2
  exact ⟨_, _, hn1, hn2, by rw [render_of_names hmode hord hn1 hn2, formatLine_eq]⟩

end Sys2Proof.Machine
end

section
/-! The row a word decodes to carries the word and what `Decode` gives for it (spec/40_decoder.md R79 to R82). -/

namespace Sys2Proof.Machine

/-- R56: the four values of MOD, in the order of the MOV rows. -/
theorem mod_cases : ∀ m : BitVec 2, m = 0b11#2 ∨ m = 0b00#2 ∨ m = 0b01#2 ∨ m = 0b10#2 := by decide

/-- R50: the fields of a word with the MOV opcode, put together again, are the word. -/
theorem encodeMov_fields {w : Word} (hop : w.toNat / 1024 = 34) :
    encodeMov (directionOf (directionField w)) (wideOf (wideField w)) (modeField w) (register1Field w)
      (register2Field w) = w := by
  have hwide : (wideOf (wideField w)).toNat = w.toNat / 256 % 2 := by
    rw [← wideField_toNat, ← ofBool_wideOf (wideField w), wideOf_ofBool, BitVec.toNat_ofBool]
  apply BitVec.eq_of_toNat_eq
  rw [encodeMov_toNat, bit_directionOf, hwide, directionField_toNat, modeField_toNat, register1Field_toNat,
    register2Field_toNat]
  omega

/-- R59: the MOV row that MOD selects encodes MOD itself. -/
theorem encode_decodeMov (w : Word) :
    encode (decodeMov w) = encodeMov (directionOf (directionField w)) (wideOf (wideField w)) (modeField w)
      (register1Field w) (register2Field w) := by
  rcases mod_cases (modeField w) with h | h | h | h <;> simp [decodeMov, h, encode]

/-- R81: the record of a MOV row keeps of MOD only whether it is 11. -/
theorem record_decodeMov (w : Word) :
    (decodeMov w).record = .ok (movRecord (directionOf (directionField w)) (wideOf (wideField w))
      (modeOf (modeField w)) (register1Field w) (register2Field w)) := by
  rcases mod_cases (modeField w) with h | h | h | h <;> simp [decodeMov, h, Instr.record, modeOf]

/-- R82: each illegal row carries its word. -/
theorem encode_decodeIllegal (w : Word) : encode (decodeIllegal w) = w := by
  unfold decodeIllegal
  split_ifs <;> rfl

/-- R82: on each illegal row `Decode` raises UnknownOpcode with the word. -/
theorem record_decodeIllegal (w : Word) : (decodeIllegal w).record = .error (.unknownOpcode w) := by
  unfold decodeIllegal
  split_ifs <;> rfl

theorem decodeWord_mov {w : Word} (hop : w.toNat / 1024 = 34) : decodeWord w = decodeMov w := by
  simp [decodeWord, recognise_mov hop]

theorem decodeWord_other {w : Word} (hop : w.toNat / 1024 ≠ 34) : decodeWord w = decodeIllegal w := by
  simp [decodeWord, recognise_other hop]

/-- R50: no bit of a word is lost in its row. -/
@[simp] theorem encode_decodeWord (w : Word) : encode (decodeWord w) = w := by
  by_cases hop : w.toNat / 1024 = 34
  · rw [decodeWord_mov hop, encode_decodeMov, encodeMov_fields hop]
  · rw [decodeWord_other hop, encode_decodeIllegal]

/-- R79: the row of a word says what `Decode` says of it. -/
@[simp] theorem record_decodeWord (w : Word) : (decodeWord w).record = decodeRecord w := by
  by_cases hop : w.toNat / 1024 = 34
  · rw [decodeWord_mov hop, record_decodeMov, decodeRecord_mov hop]
  · rw [decodeWord_other hop, record_decodeIllegal, decodeRecord_other hop]

/-- The row of a word ends in the word's own outcome. -/
@[simp] theorem instrOutcome_decodeWord (w : Word) : instrOutcome (decodeWord w) = wordOutcome w := by
  rw [instrOutcome, record_decodeWord, wordOutcome]

end Sys2Proof.Machine
end

section
/-! The step in terms of the fetched word alone (spec/43_pipeline_step.md R120 to R124, R132). -/

namespace Sys2Proof.Machine

/-- Running a word's row concludes with the outcome of `Decode` and `Render` on the word. -/
theorem exec_decodeWord (w : Word) (s : State) : exec (decodeWord w) s = conclude (wordOutcome w) w s := by
  rw [exec_eq, instrOutcome_decodeWord, encode_decodeWord]

/-- The two frames run the same process. -/
theorem step_eq_specStep (s : State) : step s = specStep s := by
  simp only [step, specStep, exec_decodeWord]

/-- R123: the step at the end of the input. -/
theorem step_of_wp_eq {s : State} (hst : s.st = .running) (hwp : s.wp = wordCount s) :
    step s = .next (finish s) := by
  simp [step, stepFrame, hst, hwp]

/-- R121: the step on a fetched word. -/
theorem step_of_fetch {s : State} {w : Word} (hst : s.st = .running) (hwp : s.wp ≠ wordCount s)
    (hf : fetch s = some w) : step s = conclude (wordOutcome w) w s := by
  rw [step, stepFrame_process hst hwp hf, exec_decodeWord]

/-- R121: the step below NW, on the word that the fetch then answers. -/
theorem step_of_lt {s : State} (hst : s.st = .running) (hwp : s.wp < wordCount s) :
    ∃ w, fetch s = some w ∧ step s = conclude (wordOutcome w) w s := by
  obtain ⟨w, hf⟩ := fetch_of_lt hwp
  exact ⟨w, hf, step_of_fetch hst hwp.ne hf⟩

/-- `step_cases` with the row of the fetched word read back as the word. -/
theorem step_cases_word {s t : State} (h : step s = .next t) :
    s.st = .running ∧
      ((s.wp = wordCount s ∧ t = finish s) ∨
       (s.wp ≠ wordCount s ∧ ∃ w, fetch s = some w ∧
         ((∃ line, wordOutcome w = .ok line ∧ t = advance (emit line s)) ∨
          (∃ f, wordOutcome w = .error f ∧ t = abort f w s)))) := by
  simpa only [instrOutcome_decodeWord, encode_decodeWord] using step_cases h

/-- R126: a state of a run that is not faulted has fault code 0. -/
theorem RunInv.faultCode_eq_zero {s : State} (hinv : RunInv s) (hst : s.st ≠ .fault) : faultCode s.fkind = 0 :=
  not_not.mp fun hk => hst (hinv.fault_iff.mpr hk)

/-- Settles O22: each arm is `conclude` on the outcome of the fetched word, split into `Decode` and `Render`. -/
theorem stepIsTheSpecStep : Obligations.StepIsTheSpecStep := by
  intro s
  refine ⟨step_eq_specStep s, step_of_wp_eq, fun hst hwp => ?_⟩
  obtain ⟨w, hf, hstep⟩ := step_of_lt hst hwp
  refine ⟨w, hf, fun f hdec => ?_, fun I f hdec hren => ?_, fun I line hdec hren => ?_⟩
  · rw [hstep, wordOutcome_of_error hdec, conclude_error]
  · rw [hstep, wordOutcome_of_ok hdec, hren, conclude_error]
  · rw [hstep, wordOutcome_of_ok hdec, hren]
    rfl

/-- Settles O26: the line's arm is the first clause; the end of the input and the fault entry are the second. -/
theorem wpAndOutMoveTogether : Obligations.WpAndOutMoveTogether := by
  intro s t hstep
  obtain ⟨hst, ⟨hwp, rfl⟩ | ⟨_, w, hf, ⟨line, hout, rfl⟩ | ⟨f, hout, rfl⟩⟩⟩ := step_cases_word hstep
  · exact .inr ⟨rfl, rfl, .inl rfl, fun _ _ hne => absurd hwp hne⟩
  · exact .inl ⟨rfl, hst, w, line, hf, hout, rfl⟩
  · refine .inr ⟨rfl, rfl, .inr rfl, fun v hv _ => ?_⟩
    obtain rfl : w = v := Option.some.inj (hf.symm.trans hv)
    exact ⟨f, hout⟩

/-- Settles O29: both steps conclude with the outcome of the one fetched word. -/
theorem wordOutcomeIsIndependentOfTheRest : Obligations.WordOutcomeIsIndependentOfTheRest := by
  intro s s' t t' hsrun htrun hswp htwp hsame hs ht
  obtain ⟨w, hf, hstep⟩ := step_of_lt hsrun hswp
  rw [hstep] at hs
  rw [step_of_fetch htrun htwp.ne (hsame.symm.trans hf)] at ht
  cases hout : wordOutcome w with
  | ok line =>
    rw [hout, conclude_ok] at hs ht
    cases hs
    cases ht
    simp [hsrun, htrun]
  | error f =>
    rw [hout, conclude_error] at hs ht
    cases hs
    cases ht
    simp

/-- Settles O24: the end-of-input step, and the run's invariants read at `wp = NW` while Running. -/
theorem endOfInputSetsDone : Obligations.EndOfInputSetsDone := by
  intro s hst hwp
  refine ⟨step_of_wp_eq hst hwp, fun hinv => ⟨hinv.out_length.trans hwp, hinv.faultCode_eq_zero ?_⟩⟩
  simp [hst]

/-- Settles O25: a step needs ST = Running, which reset sets. -/
theorem noStepAfterTheEndOfARun : Obligations.NoStepAfterTheEndOfARun := by
  intro s hst
  exact ⟨fun _ hstep => hst (step_cases hstep).1, applyReset_st s⟩

end Sys2Proof.Machine
end

section
/-! BitPacker's output as the groups of eight recognised bits (spec/44_bitpacker_companion.md R140 to R142). -/

namespace Sys2Proof.Machine

/-- The accumulator of R141 after `bits`: the first bit of the list is the most significant. -/
def accOfBits (bits : List Bool) : Byte := (BitVec.ofBoolListBE bits).setWidth 8

/-- R141 and R142: the whole groups of eight bits, each as a byte; the leftover bits are in no group. -/
def bytesOfBits (bits : List Bool) : List Byte :=
  (List.range (bits.length / 8)).map fun k => accOfBits ((bits.drop (8 * k)).take 8)

/-! ### The accumulator -/

@[simp] theorem accOfBits_nil : accOfBits [] = 0 := rfl

/-- R141: the loop's update of the accumulator puts one more bit behind the others. -/
theorem accOfBits_concat (bits : List Bool) (b : Bool) :
    accOfBits (bits ++ [b]) = accOfBits bits <<< 1 ||| (BitVec.ofBool b).setWidth 8 := by
  ext i hi
  cases i with
  | zero => simp [accOfBits]
  | succ i =>
    by_cases hlt : i < bits.length
    · have hin : bits.length - (i + 1) < bits.length := by omega
      simp [accOfBits, hlt, Nat.sub_sub, Nat.add_comm 1 i, List.getElem_append_left hin]
    · simp [accOfBits, hlt]

/-- R141: in a full accumulator bit `7 - j` is the bit that came in at place `j`. -/
theorem getLsbD_accOfBits_of_full {bits : List Bool} (hfull : bits.length = 8) {j : Nat} (hj : j < 8) :
    some ((accOfBits bits).getLsbD (7 - j)) = bits[j]? := by
  have hplace : 7 - (7 - j) = j := by omega
  have hlt : 7 - j < 8 := by omega
  simp [accOfBits, hfull, hplace, hlt]

/-! ### The groups of eight -/

/-- R142: fewer than eight bits make no byte. -/
theorem bytesOfBits_of_lt {bits : List Bool} (h : bits.length < 8) : bytesOfBits bits = [] := by
  simp [bytesOfBits, Nat.div_eq_of_lt h]

/-- R141: a full group in front makes one byte, and the rest is grouped afresh. -/
theorem bytesOfBits_append_of_full {group : List Bool} (hfull : group.length = 8) (rest : List Bool) :
    bytesOfBits (group ++ rest) = accOfBits group :: bytesOfBits rest := by
  have hcount : (group ++ rest).length / 8 = rest.length / 8 + 1 := by simp [hfull]
  have hdrop (k : Nat) : (group ++ rest).drop (8 * (k + 1)) = rest.drop (8 * k) := by
    rw [Nat.mul_succ, Nat.add_comm, ← hfull, List.drop_length_add_append]
  rw [bytesOfBits, hcount, List.range_succ_eq_map]
  simp [bytesOfBits, hdrop, hfull]

/-- R142: the number of bytes. -/
@[simp] theorem length_bytesOfBits (bits : List Bool) : (bytesOfBits bits).length = bits.length / 8 := by
  simp [bytesOfBits]

/-- R141: byte `k` is made of the bits from `8 * k` on. -/
theorem getLsbD_bytesOfBits {bits : List Bool} {k j : Nat} (hk : k < bits.length / 8) (hj : j < 8) :
    (bytesOfBits bits)[k]?.map (fun b => b.getLsbD (7 - j)) = bits[8 * k + j]? := by
  have hfull : ((bits.drop (8 * k)).take 8).length = 8 := by
    simp only [List.length_take, List.length_drop]
    omega
  simp [bytesOfBits, hk, getLsbD_accOfBits_of_full hfull hj, hj]

/-! ### The loop -/

/-- R140: a character gives its one bit, or none when it is skipped. -/
theorem packBits_cons (c : Char) (cs : List Char) : packBits (c :: cs) = (packBit c).toList ++ packBits cs := by
  cases h : packBit c <;> simp [packBits, h]

/-- R141: with `held` in the accumulator, the loop groups those bits and the recognised bits still to come. -/
theorem packFrom_accOfBits (text : List Char) : ∀ held : List Bool, held.length < 8 →
    packFrom text (accOfBits held) held.length = bytesOfBits (held ++ packBits text) := by
  induction text with
  | nil => exact fun held hheld => by simp [packFrom, packBits, bytesOfBits_of_lt hheld]
  | cons c cs ih =>
    intro held hheld
    cases hc : packBit c with
    | none => simpa [packFrom, packBits_cons, hc] using ih held hheld
    | some b =>
      have hbits : held ++ packBits (c :: cs) = (held ++ [b]) ++ packBits cs := by simp [packBits_cons, hc]
      rw [hbits]
      by_cases hlast : held.length = 7
      · have hgroup : (held ++ [b]).length = 8 := by simp [hlast]
        rw [bytesOfBits_append_of_full hgroup]
        simpa [packFrom, hc, hlast, accOfBits_concat] using ih [] (by decide)
      · have hmore : (held ++ [b]).length < 8 := by simp; omega
        simpa [packFrom, hc, hlast, accOfBits_concat] using ih (held ++ [b]) hmore

/-- R141 and R142: `pack` groups the recognised bits. -/
theorem pack_eq_bytesOfBits (text : List Char) : pack text = bytesOfBits (packBits text) :=
  packFrom_accOfBits text [] (by decide)

/-- Settles O45: the packed bytes are the groups of eight, whose number and bits are known. -/
theorem packTakesEightBitsMostSignificantFirst : Obligations.PackTakesEightBitsMostSignificantFirst := by
  intro text
  rw [pack_eq_bytesOfBits, length_bytesOfBits]
  exact ⟨rfl, fun _ _ hk hj => getLsbD_bytesOfBits hk hj⟩

end Sys2Proof.Machine
end

section
/-! Reset and the step after it (spec/70_reset_and_hazards.md R180, R182). -/

namespace Sys2Proof.Machine

/-- R19: no byte from offset N up. -/
theorem readByte_of_ge {s : State} {j : Nat} (h : s.n ≤ j) : readByte s j = none := by
  simp [readByte, Nat.not_lt.mpr h]

/-- R33: no word from position NW up, since its second byte is outside the buffer. -/
theorem fetchAt_of_ge {s : State} {p : Nat} (h : wordCount s ≤ p) : fetchAt s p = none := by
  have hsecond : s.n ≤ 2 * p + 1 := by unfold wordCount at h; omega
  simp [fetchAt, memRead, readByte_of_ge hsecond]

/-- A word that the buffer holds is below NW: the converse of `fetch_of_lt`, at any position. -/
theorem lt_wordCount_of_fetchAt {s : State} {p : Nat} {w : Word} (h : fetchAt s p = some w) : p < wordCount s := by
  by_contra hge
  simp [fetchAt_of_ge (Nat.not_lt.mp hge)] at h

/-- R180: the fetch after reset is of word 0. -/
theorem fetch_applyReset (s : State) : fetch (applyReset s) = fetchAt s 0 :=
  fetchAt_congr (applyReset_ibuf s) (applyReset_n s) 0

/-- R180: with a word at offset 0, the step after reset runs it. -/
theorem step_applyReset_of_fetchAt {s : State} {w : Word} (h : fetchAt s 0 = some w) :
    step (applyReset s) = exec (decodeWord w) (applyReset s) := by
  have hwp : (applyReset s).wp ≠ wordCount (applyReset s) := (lt_wordCount_of_fetchAt h).ne
  rw [exec_decodeWord]
  exact step_of_fetch (applyReset_st s) hwp ((fetch_applyReset s).trans h)

/-- R180: with no word in the buffer, the step after reset ends the run. -/
theorem step_applyReset_of_empty {s : State} (h : wordCount s = 0) :
    step (applyReset s) = .next (finish (applyReset s)) :=
  step_of_wp_eq (applyReset_st s) h.symm

/-- Settles O38: the items are written by reset itself; the next step is split on whether there is a word 0. -/
theorem resetSetsTheSevenItems : Obligations.ResetSetsTheSevenItems := by
  intro s
  have hbytes : ∀ a, readByte (applyReset s) a = readByte s a := readByte_congr (applyReset_ibuf s) (applyReset_n s)
  exact ⟨rfl, rfl, rfl, rfl, rfl, rfl, rfl, rfl, hbytes, fun _ => step_applyReset_of_fetchAt, step_applyReset_of_empty⟩

end Sys2Proof.Machine
end

section
/-! The rows of the opcode table bit by bit, and the two directions between instructions and words
(spec/30_encoding.md R50, R59). -/

namespace Sys2Proof.Machine

/-! ### The bits a row tests -/

theorem tableRow_mem_opcodeTable (i : Instr) : i.tableRow ∈ opcodeTable := by
  cases i <;> simp [Instr.tableRow, opcodeTable]

/-- R59: no row of the table asks for a bit that it masks out. -/
theorem pattern_and_mask : ∀ r ∈ opcodeTable, r.pattern &&& r.mask = r.pattern := by decide

/-- A word is in a row exactly when it has the pattern's value at every bit of the mask. -/
theorem holds_tableRow_iff_bits (i : Instr) (w : Word) :
    i.tableRow.holds w = true ↔
      ∀ k ∈ (List.range 16).filter i.tableRow.mask.getLsbD, w.getLsbD k = i.tableRow.pattern.getLsbD k := by
  rw [TableRow.holds, beq_iff_eq]
  simp only [List.mem_filter, List.mem_range, and_imp]
  refine ⟨fun h k _ hm => ?_, fun h => BitVec.eq_of_getLsbD_eq fun k hk => ?_⟩
  · rw [← h, BitVec.getLsbD_and, hm, Bool.and_true]
  · cases hm : i.tableRow.mask.getLsbD k with
    | true => rw [BitVec.getLsbD_and, hm, Bool.and_true, h k hk hm]
    | false =>
      rw [← pattern_and_mask _ (tableRow_mem_opcodeTable i), BitVec.getLsbD_and, BitVec.getLsbD_and, hm, Bool.and_false,
        Bool.and_false]

/-- R53: the MOV opcode 100010, bit by bit. -/
theorem mov_iff_bits (w : Word) :
    w.toNat / 1024 = 34 ↔ w.getLsbD 10 = false ∧ w.getLsbD 11 = true ∧ w.getLsbD 12 = false ∧ w.getLsbD 13 = false ∧
      w.getLsbD 14 = false ∧ w.getLsbD 15 = true := by
  have hlt := w.isLt
  simp only [BitVec.getLsbD, Nat.testBit_eq_decide_div_mod_eq, decide_eq_true_eq, decide_eq_false_iff_not]
  omega

section IllegalRows
variable (w : Word)

/-! R59: an illegal row asks for the leading bits of 100010 and then for the first bit that differs. -/

@[simp] theorem illegalBit15_wf_iff : (Instr.illegalBit15 w).wf = true ↔ w.getLsbD 15 = false :=
  (holds_tableRow_iff_bits _ w).trans (by simp [List.range_succ, Instr.tableRow])

@[simp] theorem illegalBit14_wf_iff : (Instr.illegalBit14 w).wf = true ↔ w.getLsbD 14 = true ∧ w.getLsbD 15 = true :=
  (holds_tableRow_iff_bits _ w).trans (by simp [List.range_succ, Instr.tableRow])

@[simp] theorem illegalBit13_wf_iff :
    (Instr.illegalBit13 w).wf = true ↔ w.getLsbD 13 = true ∧ w.getLsbD 14 = false ∧ w.getLsbD 15 = true :=
  (holds_tableRow_iff_bits _ w).trans (by simp [List.range_succ, Instr.tableRow])

@[simp] theorem illegalBit12_wf_iff :
    (Instr.illegalBit12 w).wf = true ↔
      w.getLsbD 12 = true ∧ w.getLsbD 13 = false ∧ w.getLsbD 14 = false ∧ w.getLsbD 15 = true :=
  (holds_tableRow_iff_bits _ w).trans (by simp [List.range_succ, Instr.tableRow])

@[simp] theorem illegalBit11_wf_iff :
    (Instr.illegalBit11 w).wf = true ↔
      w.getLsbD 11 = false ∧ w.getLsbD 12 = false ∧ w.getLsbD 13 = false ∧ w.getLsbD 14 = false ∧
        w.getLsbD 15 = true :=
  (holds_tableRow_iff_bits _ w).trans (by simp [List.range_succ, Instr.tableRow])

@[simp] theorem illegalBit10_wf_iff :
    (Instr.illegalBit10 w).wf = true ↔
      w.getLsbD 10 = true ∧ w.getLsbD 11 = true ∧ w.getLsbD 12 = false ∧ w.getLsbD 13 = false ∧
        w.getLsbD 14 = false ∧ w.getLsbD 15 = true :=
  (holds_tableRow_iff_bits _ w).trans (by simp [List.range_succ, Instr.tableRow])

end IllegalRows

/-! ### Encoding and decoding -/

/-- The MOV rows are well formed by their types. -/
theorem decodeMov_wf (w : Word) : (decodeMov w).wf = true := by
  rcases mod_cases (modeField w) with h | h | h | h <;> simp [decodeMov, h, Instr.wf]

/-- R59: a word without the MOV opcode lies in the row of the first bit that differs. -/
theorem decodeIllegal_wf {w : Word} (hop : w.toNat / 1024 ≠ 34) : (decodeIllegal w).wf = true := by
  rw [Ne, mov_iff_bits] at hop
  unfold decodeIllegal
  split_ifs with h15 h14 h13 h12 h11
  · exact (illegalBit15_wf_iff w).mpr h15
  · exact (illegalBit14_wf_iff w).mpr (by simp_all)
  · exact (illegalBit13_wf_iff w).mpr (by simp_all)
  · exact (illegalBit12_wf_iff w).mpr (by simp_all)
  · exact (illegalBit11_wf_iff w).mpr (by simp_all)
  · exact (illegalBit10_wf_iff w).mpr (by simp_all)

/-- R59, R73: every word decodes to a well-formed instruction. -/
theorem decodeWord_wf (w : Word) : (decodeWord w).wf = true := by
  by_cases hop : w.toNat / 1024 = 34
  · rw [decodeWord_mov hop]
    exact decodeMov_wf w
  · rw [decodeWord_other hop]
    exact decodeIllegal_wf hop

/-- A word with the MOV opcode is read field by field from its encoding. -/
theorem decodeWord_encodeMov (d : Direction) (wide : Bool) (m : BitVec 2) (r1 r2 : BitVec 3) :
    decodeWord (encodeMov d wide m r1 r2) = decodeMov (encodeMov d wide m r1 r2) :=
  decodeWord_mov (opcodeField_eq_mov.mp (opcodeField_encodeMov d wide m r1 r2))

/-- The instructions of the six illegal rows for the word `w`, in the table's order. -/
def illegalRows (w : Word) : List Instr :=
  [.illegalBit15 w, .illegalBit14 w, .illegalBit13 w, .illegalBit12 w, .illegalBit11 w, .illegalBit10 w]

/-- R82: a word in an illegal row does not have the MOV opcode, and its first differing bit names that row. -/
theorem illegal_of_wf {w : Word} {i : Instr} (hi : i ∈ illegalRows w) (hwf : i.wf = true) :
    w.toNat / 1024 ≠ 34 ∧ decodeIllegal w = i := by
  simp only [illegalRows, List.mem_cons, List.not_mem_nil, or_false] at hi
  rw [Ne, mov_iff_bits]
  rcases hi with rfl | rfl | rfl | rfl | rfl | rfl <;> simp_all [decodeIllegal]

theorem encode_illegal {w : Word} {i : Instr} (hi : i ∈ illegalRows w) : encode i = w := by
  simp only [illegalRows, List.mem_cons, List.not_mem_nil, or_false] at hi
  rcases hi with rfl | rfl | rfl | rfl | rfl | rfl <;> rfl

theorem decodeWord_encode_illegal {w : Word} {i : Instr} (hi : i ∈ illegalRows w) (hwf : i.wf = true) :
    decodeWord (encode i) = i := by
  obtain ⟨hop, hdec⟩ := illegal_of_wf hi hwf
  rw [encode_illegal hi, decodeWord_other hop, hdec]

/-- R50: no bit of an encoding is dropped. -/
theorem decodeWord_encode {i : Instr} (hwf : i.wf = true) : decodeWord (encode i) = i := by
  cases i
  case movRegister | movMemory00 | movMemory01 | movMemory10 => simp [encode, decodeWord_encodeMov, decodeMov]
  case illegalBit15 w | illegalBit14 w | illegalBit13 w | illegalBit12 w | illegalBit11 w | illegalBit10 w =>
    exact decodeWord_encode_illegal (w := w) (by simp [illegalRows]) hwf

/-- R31, R51: the byte decoder takes the two bytes of a word and leaves the rest. -/
theorem decode_wordBytes_append (w : Word) (rest : List Byte) :
    decode (wordBytes w ++ rest) = .ok (decodeWord w, rest) := by
  simp [wordBytes, decode]

/-- Settles O1: the byte decoder reads the encoding's word, which decodes to its instruction. -/
theorem decodeOfEncodeIsTheInstruction : Obligations.DecodeOfEncodeIsTheInstruction := by
  intro i rest hwf
  rw [decode_wordBytes_append, decodeWord_encode hwf]

/-- Settles O2: the word is read back from its row, and an encoding determines its instruction by decoding. -/
theorem encodeOfDecodeIsTheWord : Obligations.EncodeOfDecodeIsTheWord := by
  refine fun w => ⟨decodeWord_wf w, encode_decodeWord w, ?_⟩
  rintro i hwf rfl
  exact (decodeWord_encode hwf).symm

/-- Settles O3: the eleven buffers are decoded by evaluation. -/
theorem specWordsDecodeToTheirInstructions : Obligations.SpecWordsDecodeToTheirInstructions := by
  exact ⟨rfl, rfl, rfl, rfl, rfl, rfl, rfl, rfl, rfl, rfl, rfl⟩

/-! ### One row for each word -/

/-- R59: a well-formed instruction's word lies in the row of its constructor. -/
theorem holds_encode {i : Instr} (hwf : i.wf = true) : i.tableRow.holds (encode i) = true := by
  cases i
  case movRegister d w r1 r2 => exact Laws.InItsRow.movRegister d w r1 r2 hwf
  case movMemory00 d w r1 r2 => exact Laws.InItsRow.movMemory00 d w r1 r2 hwf
  case movMemory01 d w r1 r2 => exact Laws.InItsRow.movMemory01 d w r1 r2 hwf
  case movMemory10 d w r1 r2 => exact Laws.InItsRow.movMemory10 d w r1 r2 hwf
  case illegalBit15 | illegalBit14 | illegalBit13 | illegalBit12 | illegalBit11 | illegalBit10 => exact hwf

theorem holds_tableRow_decodeWord (w : Word) : (decodeWord w).tableRow.holds w = true := by
  simpa using holds_encode (decodeWord_wf w)

theorem opcodeTable_nodup : opcodeTable.Nodup := by decide

/-- R59: two different rows ask for different values of a bit that both test. -/
theorem opcodeTable_separated : ∀ r ∈ opcodeTable, ∀ r' ∈ opcodeTable, r ≠ r' →
    r.pattern &&& r'.mask ≠ r'.pattern &&& r.mask := by decide

/-- R59: no word lies in two rows. -/
theorem eq_of_holds {r r' : TableRow} {w : Word} (hr : r ∈ opcodeTable) (hr' : r' ∈ opcodeTable)
    (h : r.holds w = true) (h' : r'.holds w = true) : r = r' := by
  by_contra hne
  rw [TableRow.holds, beq_iff_eq] at h h'
  apply opcodeTable_separated r hr r' hr' hne
  rw [← h, ← h', BitVec.and_assoc, BitVec.and_assoc, BitVec.and_comm r.mask]

/-- Settles O4: the rows a word lies in are those equal to its own row, which the table lists once. -/
theorem everyWordLiesInExactlyItsRow : Obligations.EveryWordLiesInExactlyItsRow := by
  intro w
  have hmem := tableRow_mem_opcodeTable (decodeWord w)
  have hown : ∀ r ∈ opcodeTable, r.holds w = (r == (decodeWord w).tableRow) := fun r hr => by
    rw [Bool.eq_iff_iff, beq_iff_eq]
    exact ⟨fun h => eq_of_holds hr hmem h (holds_tableRow_decodeWord w), fun h => h ▸ holds_tableRow_decodeWord w⟩
  rw [List.filter_congr hown, List.filter_beq, List.count_eq_one_of_mem opcodeTable_nodup hmem]
  rfl

end Sys2Proof.Machine
end

section
/-! What an instruction and a step write and keep (spec/40_decoder.md R80 to R82, spec/60_exceptions.md R158). -/

namespace Sys2Proof.Machine

/-! ### Record and outcome of an encoding -/

/-- A well-formed instruction's word ends in the instruction's own outcome. -/
theorem wordOutcome_encode {i : Instr} (hwf : i.wf = true) : wordOutcome (encode i) = instrOutcome i := by
  rw [← instrOutcome_decodeWord, decodeWord_encode hwf]

/-- A well-formed instruction's word has the instruction's own record. -/
theorem decodeRecord_encode {i : Instr} (hwf : i.wf = true) : decodeRecord (encode i) = i.record := by
  rw [← record_decodeWord, decodeWord_encode hwf]

/-- R54: the D bit as a number. -/
theorem toNat_bit (d : Direction) : d.bit.toNat = if d = .fromRegister then 1 else 0 := by
  cases d <;> rfl

/-! ### `movRegister` -/

/-- The column of the ROM for a width, as a function of the index. -/
def columnName (wide : Bool) (i : Nat) : Line := (if wide then wideNames else narrowNames).getD i []

/-- R90: below 8 a lookup answers its column's entry. -/
theorem name_eq_columnName {i : Nat} (wide : Bool) (h : i ≤ 7) : name i wide = .ok (columnName wide i) := by
  obtain ⟨a, b, hn⟩ := name_of_le wide h
  rw [hn, columnName, List.getD_eq_getElem?_getD, name_ok_iff.mp hn, Option.getD_some]

/-- The line of a register-mode MOV, destination first (R80, R102). -/
def movLine (d : Direction) (wide : Bool) (r1 r2 : BitVec 3) : Line :=
  match d with
  | .toRegister => formatLine .mov (columnName wide r1.toNat) (columnName wide r2.toNat)
  | .fromRegister => formatLine .mov (columnName wide r2.toNat) (columnName wide r1.toNat)

/-- R80: a register-mode MOV renders its line. -/
theorem instrOutcome_movRegister (d : Direction) (wide : Bool) (r1 r2 : BitVec 3) :
    instrOutcome (.movRegister d wide r1 r2) = .ok (movLine d wide r1 r2) := by
  have hn1 := name_eq_columnName wide (Nat.le_of_lt_succ r1.isLt)
  have hn2 := name_eq_columnName wide (Nat.le_of_lt_succ r2.isLt)
  cases d
  · exact render_of_names (I := movRecord .toRegister wide .register r1 r2) rfl rfl hn1 hn2
  · exact render_of_names (I := movRecord .fromRegister wide .register r1 r2) rfl rfl hn2 hn1

/-- R80: a register-mode MOV emits its line and advances, in every state. -/
theorem exec_movRegister (d : Direction) (wide : Bool) (r1 r2 : BitVec 3) (s : State) :
    exec (.movRegister d wide r1 r2) s = .next (advance (emit (movLine d wide r1 r2) s)) := by
  rw [exec_eq, instrOutcome_movRegister, conclude_ok]

/-- Settles O15: each variant is `exec_movRegister`, with the encoding's number field by field. -/
theorem movRegisterEmitsItsLineAndAdvances : Obligations.MovRegisterEmitsItsLineAndAdvances := by
  rintro r1 r2 s _ _ rfl rfl
  have hword (d : Direction) (wide : Bool) : (encode (.movRegister d wide r1 r2)).toNat =
      34 * 1024 + d.bit.toNat * 512 + wide.toNat * 256 + 3 * 64 + r1.toNat * 8 + r2.toNat :=
    encodeMov_toNat d wide 3 r1 r2
  refine ⟨⟨?_, exec_movRegister ..⟩, ⟨?_, exec_movRegister ..⟩, ⟨?_, exec_movRegister ..⟩, ⟨?_, exec_movRegister ..⟩⟩
  all_goals
    simp only [hword, toNat_bit, reduceCtorEq, if_true, if_false, Bool.toNat_false, Bool.toNat_true]
    omega

/-- Settles O18: `exec_movRegister` writes OUT, at its end, and `wp` only. -/
theorem movRegisterFrame : Obligations.MovRegisterFrame := by
  intro d wide r1 r2 s t hexec
  rw [exec_movRegister] at hexec
  cases hexec
  exact ⟨rfl, rfl, rfl, rfl, rfl, rfl, readByte_congr rfl rfl, fun k hk => List.getElem?_append_left hk⟩

/-! ### The forms that fault -/

/-- A form that faults takes the fault entry with its own word. -/
theorem exec_of_error {i : Instr} {f : CoreFault} (h : instrOutcome i = .error f) (s : State) :
    exec i s = .next (abort f (encode i) s) := by
  rw [exec_eq, h, conclude_error]

/-- R82: an illegal row ends in UnknownOpcode with its word. -/
theorem instrOutcome_illegal {w : Word} {i : Instr} (hi : i ∈ illegalRows w) :
    instrOutcome i = .error (.unknownOpcode w) := by
  simp only [illegalRows, List.mem_cons, List.not_mem_nil, or_false] at hi
  rcases hi with rfl | rfl | rfl | rfl | rfl | rfl <;> rfl

/-- R157, R158: a fault of an instruction leaves FIDX. -/
theorem faultIndex_of_instrOutcome {i : Instr} {f : CoreFault} (h : instrOutcome i = .error f) (old : Nat) :
    faultIndex f old = old := by
  rcases instrOutcome_error h with rfl | rfl <;> rfl

/-- Settles O16: the record is in memory mode, so the renderer's fault is taken with the row's word. -/
theorem movMemoryTakesUnsupportedMode : Obligations.MovMemoryTakesUnsupportedMode := by
  intro d wide r1 r2 s i mm hrow
  obtain ⟨hwf, hout, hrec, m, rfl, henc⟩ : i.wf = true ∧ instrOutcome i = .error .unsupportedMode ∧
      i.record = .ok (movRecord d wide .memory r1 r2) ∧
      ∃ m : BitVec 2, m.toNat = mm ∧ encode i = encodeMov d wide m r1 r2 := by
    rcases hrow with ⟨rfl, rfl⟩ | ⟨rfl, rfl⟩ | ⟨rfl, rfl⟩
    · exact ⟨rfl, rfl, rfl, 0, rfl, rfl⟩
    · exact ⟨rfl, rfl, rfl, 1, rfl, rfl⟩
    · exact ⟨rfl, rfl, rfl, 2, rfl, rfl⟩
  refine ⟨exec_of_error hout s, rfl, ?_, (decodeRecord_encode hwf).trans hrec⟩
  rw [henc, encodeMov_toNat, toNat_bit]
  omega

/-- Settles O17: the decoder's fault is taken with the row's word, which has another opcode than MOV. -/
theorem illegalTakesUnknownOpcode : Obligations.IllegalTakesUnknownOpcode := by
  intro w s i hrow
  have hi : i ∈ illegalRows w := by simpa [illegalRows] using hrow
  refine ⟨?_, rfl, fun hwf => ?_⟩
  · rw [exec_of_error (instrOutcome_illegal hi), encode_illegal hi]
    rfl
  · have hop := (illegal_of_wf hi hwf).1
    exact ⟨hop, decodeRecord_other hop⟩

/-- Settles O19: each of the nine forms takes the fault entry, which leaves FIDX for their faults. -/
theorem faultingFormsFrame : Obligations.FaultingFormsFrame := by
  intro d wide r1 r2 v i s t hi hexec
  obtain ⟨f, hout⟩ : ∃ f, instrOutcome i = .error f := by
    simp only [List.mem_cons, List.not_mem_nil, or_false] at hi
    rcases hi with rfl | rfl | rfl | rfl | rfl | rfl | rfl | rfl | rfl <;> exact ⟨_, rfl⟩
  rw [exec_of_error hout] at hexec
  cases hexec
  exact ⟨rfl, rfl, faultIndex_of_instrOutcome hout s.fidx, rfl, readByte_congr rfl rfl⟩

/-! ### The fault entry -/

/-- The fault entry leaves the buffer as it reads. -/
theorem readByte_abort (f : CoreFault) (w : Word) (s : State) (a : Nat) : readByte (abort f w s) a = readByte s a :=
  readByte_congr (abort_ibuf s f w) (abort_n s f w) a

/-- R100, R110: the two faults of the renderer. -/
theorem render_error {I : InstructionRecord} {f : CoreFault} (h : render I = .error f) :
    f = .unsupportedMode ∨ ∃ i, f = .invalidRegisterIndex i ∧ 7 < i := by
  rcases render_cases I with ⟨_, hr⟩ | ⟨_, i, hi, _, hr⟩ | ⟨_, _, _, n1, n2, _, _, hr⟩
  · exact .inl (Except.error.inj (h.symm.trans hr))
  · exact .inr ⟨i, Except.error.inj (h.symm.trans hr), hi⟩
  · simp [hr] at h

/-- Settles O20: both processings conclude with the fault entry, whose writes are its own laws. -/
theorem faultEntryWritesTheRecord : Obligations.FaultEntryWritesTheRecord := by
  refine ⟨fun w s => ⟨_, rfl, rfl, rfl, rfl, rfl, rfl, rfl, rfl, rfl, readByte_abort _ w s⟩, fun w I s f hren => ?_⟩
  have hnext : processRecord w I s = .next (abort f w s) := by rw [processRecord, hren, conclude_error]
  refine ⟨_, hnext, rfl, rfl, rfl, rfl, rfl, rfl, readByte_abort f w s, ?_⟩
  rcases render_error hren with rfl | ⟨i, rfl, hi⟩
  · exact .inl ⟨rfl, rfl, rfl⟩
  · exact .inr ⟨i, rfl, hi, rfl, rfl⟩

/-! ### The step -/

/-- A word whose two bytes exist is the word of those bytes. -/
theorem fetchAt_of_readByte {s : State} {p : Nat} {b0 b1 : Byte} (h0 : readByte s (2 * p) = some b0)
    (h1 : readByte s (2 * p + 1) = some b1) : fetchAt s p = some (wordOfBytes b0 b1) := by
  simp [fetchAt, memRead, h0, h1]

/-- Settles O21: the fetch answers the word of the two bytes, which the frame gives to `exec` decoded. -/
theorem stepRunsTheDecodedInstruction : Obligations.StepRunsTheDecodedInstruction := by
  intro s b0 b1 i rest hst hwp h0 h1 hdec
  obtain rfl : decodeWord (wordOfBytes b0 b1) = i := congrArg Prod.fst (Except.ok.inj hdec)
  exact ⟨decodeWord_wf _, stepFrame_process hst hwp.ne (fetchAt_of_readByte h0 h1)⟩

/-- R157: the fault of a word is UnknownOpcode or UnsupportedMode. -/
theorem wordOutcome_error {w : Word} {f : CoreFault} (h : wordOutcome w = .error f) :
    f = .unknownOpcode w ∨ f = .unsupportedMode := by
  rw [← instrOutcome_decodeWord] at h
  simpa using instrOutcome_error h

/-- R41: no step writes IBUF or N. -/
theorem step_keeps_input {s t : State} (h : step s = .next t) : t.ibuf = s.ibuf ∧ t.n = s.n := by
  obtain ⟨_, ⟨_, rfl⟩ | ⟨_, w, _, ⟨line, _, rfl⟩ | ⟨f, _, rfl⟩⟩⟩ := step_cases_word h
  · exact ⟨rfl, rfl⟩
  · exact ⟨rfl, rfl⟩
  · exact ⟨rfl, rfl⟩

/-- Settles O27: a byte read looks at the buffer and its length only. -/
theorem noStepWritesTheInput : Obligations.NoStepWritesTheInput := by
  intro s t hstep
  obtain ⟨hbuf, hn⟩ := step_keeps_input hstep
  exact ⟨hn, hbuf, readByte_congr hbuf hn⟩

/-- Settles O28: a step writes the fault registers in the fault entry only, and there for a word's own fault. -/
theorem noStepRaisesAnIndexOrHostFault : Obligations.NoStepRaisesAnIndexOrHostFault := by
  intro s t hstep
  obtain ⟨hst, ⟨_, rfl⟩ | ⟨_, w, _, ⟨line, _, rfl⟩ | ⟨f, hout, rfl⟩⟩⟩ := step_cases_word hstep
  · exact ⟨rfl, .inl rfl, fun h => Status.noConfusion h⟩
  · exact ⟨rfl, .inl rfl, fun h => Status.noConfusion (hst.symm.trans h)⟩
  · rcases wordOutcome_error hout with rfl | rfl
    · exact ⟨rfl, .inr (.inl rfl), fun _ => .inl rfl⟩
    · exact ⟨rfl, .inr (.inr rfl), fun _ => .inr rfl⟩

end Sys2Proof.Machine
end

section
/-! The invariants of a run, and its end (spec/43_pipeline_step.md R125 to R127, spec/20_memory.md R39). -/

namespace Sys2Proof.Machine

/-! ### The invariants (R126) -/

/-- R126 holds where a run starts. -/
theorem runInv_applyReset (s : State) : RunInv (applyReset s) where
  wp_le := Nat.zero_le _
  out_length := rfl
  out_line := fun k hk => absurd hk (Nat.not_lt_zero k)
  fault_iff := by simp [faultCode]
  fault_record := fun h => Status.noConfusion h
  done_wp := fun h => Status.noConfusion h

/-- R123: the end of the input keeps the invariants. -/
theorem RunInv.finish {s : State} (h : RunInv s) (hst : s.st = .running) (hwp : s.wp = wordCount s) :
    RunInv (finish s) where
  wp_le := h.wp_le
  out_length := h.out_length
  out_line := h.out_line
  fault_iff := by simp [h.faultCode_eq_zero (by simp [hst])]
  fault_record := fun hf => Status.noConfusion hf
  done_wp := fun _ => hwp

/-- R122, R37: a rendered word keeps the invariants, its line being the one of the word at `wp`. -/
theorem RunInv.advance_emit {s : State} {w : Word} {line : Line} (h : RunInv s) (hst : s.st = .running)
    (hf : fetch s = some w) (hout : wordOutcome w = .ok line) : RunInv (advance (emit line s)) where
  wp_le := lt_wordCount_of_fetchAt hf
  out_length := by simp [h.out_length]
  out_line := fun k hk => by
    rcases Nat.lt_succ_iff_lt_or_eq.mp hk with hlt | rfl
    · obtain ⟨v, l, hfetch, hv, hline⟩ := h.out_line k hlt
      exact ⟨v, l, hfetch, hv, by simpa [List.getElem?_append_left (h.out_length.symm ▸ hlt)] using hline⟩
    · exact ⟨w, line, hf, hout, by simp [← h.out_length]⟩
  fault_iff := h.fault_iff
  fault_record := fun hfault => Status.noConfusion (hst.symm.trans hfault)
  done_wp := fun hdone => Status.noConfusion (hst.symm.trans hdone)

/-- R150: the three faults of the block have codes other than 0. -/
theorem faultCode_kind_ne_zero (f : CoreFault) : faultCode (CoreFault.kind f) ≠ 0 := by
  cases f <;> simp [CoreFault.kind, faultCode]

/-- R124: the fault entry keeps the invariants, its record being about the word at `wp`. -/
theorem RunInv.abort {s : State} {w : Word} {f : CoreFault} (h : RunInv s) (hf : fetch s = some w)
    (hout : wordOutcome w = .error f) : RunInv (abort f w s) where
  wp_le := h.wp_le
  out_length := h.out_length
  out_line := h.out_line
  fault_iff := iff_of_true rfl (faultCode_kind_ne_zero f)
  fault_record := fun _ => ⟨rfl, lt_wordCount_of_fetchAt hf, hf, f, hout, rfl⟩
  done_wp := fun hdone => Status.noConfusion hdone

/-- R126: every step keeps the invariants. -/
theorem RunInv.step {s t : State} (h : RunInv s) (hstep : step s = .next t) : RunInv t := by
  obtain ⟨hst, ⟨hwp, rfl⟩ | ⟨_, w, hf, ⟨line, hout, rfl⟩ | ⟨f, hout, rfl⟩⟩⟩ := step_cases_word hstep
  · exact h.finish hst hwp
  · exact h.advance_emit hst hf hout
  · exact h.abort hf hout

/-- Settles O30: the invariants by the three things a step can do, the canonical form since the buffer stays. -/
theorem everyStepKeepsTheRunInvariant : Obligations.EveryStepKeepsTheRunInvariant := by
  intro s t hinv hwf hstep
  obtain ⟨hbuf, hn⟩ := step_keeps_input hstep
  exact ⟨hinv.step hstep, (State.wf_congr hbuf hn).trans hwf⟩

end Sys2Proof.Machine
end

section
/-! The input buffer: what the host supplies or places, read byte by byte and word by word (spec/20_memory.md R31 to R33,
spec/70_reset_and_hazards.md R184). -/

namespace Sys2Proof.Machine

/-! ### Bytes -/

/-- The pairs made of a byte list give each offset its byte. -/
theorem read_ofBytesFrom (bytes : List Byte) (a j : Nat) :
    Memory.read (Memory.ofBytesFrom a bytes) (a + j) = bytes[j]?.getD Config.unlistedByte := by
  induction bytes generalizing a j with
  | nil => rfl
  | cons b bs ih =>
    have hrest : Memory.read (Memory.ofBytesFrom (a + 1) bs) a = Config.unlistedByte :=
      read_below (ofBytesFrom_wfFrom bs (Nat.le_refl _)) (Nat.lt_succ_self a)
    have htail (k : Nat) :
        Memory.read (Memory.ofBytesFrom (a + 1) bs) (a + (k + 1)) = bs[k]?.getD Config.unlistedByte := by
      rw [← ih (a + 1) k, Nat.add_assoc, Nat.add_comm 1 k]
    unfold Memory.ofBytesFrom
    split
    · rename_i hb
      cases j with
      | zero => simpa [hb] using hrest
      | succ k => simpa using htail k
    · cases j with
      | zero => simp [Memory.read]
      | succ k => simpa [Memory.read] using htail k

/-- R19, R184: the supplied buffer reads back byte for byte, and has no other offset. -/
theorem readByte_supply (bytes : List Byte) (s : State) (j : Nat) : readByte (supply bytes s) j = bytes[j]? := by
  by_cases hj : j < bytes.length
  · have hread := read_ofBytesFrom bytes 0 j
    rw [Nat.zero_add, List.getElem?_eq_getElem hj, Option.getD_some] at hread
    rw [readByte_of_lt hj, supply_ibuf, hread, List.getElem?_eq_getElem hj]
  · have hge : bytes.length ≤ j := Nat.le_of_not_lt hj
    rw [readByte_of_ge hge, List.getElem?_eq_none hge]

/-- The supplied buffer is canonical. -/
theorem supply_wf (bytes : List Byte) (s : State) : (supply bytes s).wf = true := by
  have hbelow : Memory.below (Memory.ofBytesFrom 0 bytes) bytes.length = true := by
    simpa using ofBytesFrom_below 0 bytes
  simp [State.wf, ofBytes_wf, hbelow]

/-- Settles O39: the two facts about a supplied buffer. -/
theorem suppliedBufferReadsBack : Obligations.SuppliedBufferReadsBack :=
  fun bytes s => ⟨readByte_supply bytes s, supply_wf bytes s⟩

/-! ### The canonical form -/

section Cons
variable {lo k : Nat} {b : Byte} {m : Memory}

theorem wfFrom_cons_iff :
    Memory.wfFrom lo ((k, b) :: m) = true ↔ lo ≤ k ∧ b ≠ Config.unlistedByte ∧ Memory.wfFrom (k + 1) m = true := by
  simp [Memory.wfFrom, and_assoc]

@[simp] theorem read_cons_self : Memory.read ((k, b) :: m) k = b := by
  simp [Memory.read]

theorem read_cons_of_ne {j : Nat} (h : k ≠ j) : Memory.read ((k, b) :: m) j = Memory.read m j := by
  simp [Memory.read, h]

/-- The first listed offset of a canonical buffer is the lowest that holds another byte than the unlisted one. -/
theorem le_of_read_ne (h : Memory.wfFrom lo ((k, b) :: m) = true) {j : Nat}
    (hj : Memory.read ((k, b) :: m) j ≠ Config.unlistedByte) : k ≤ j := by
  by_contra hlt
  have hfirst : Memory.wfFrom k ((k, b) :: m) = true :=
    wfFrom_cons_iff.mpr ⟨Nat.le_refl k, (wfFrom_cons_iff.mp h).2⟩
  exact hj (read_below hfirst (Nat.lt_of_not_le hlt))

end Cons

/-- Canonical buffers that read alike are equal, from any starts of the canonical form: each lists the lowest offset
that differs from the unlisted byte first. -/
theorem eq_of_read_eq : ∀ {m m' : Memory} {lo lo' : Nat}, Memory.wfFrom lo m = true → Memory.wfFrom lo' m' = true →
    (∀ j, Memory.read m j = Memory.read m' j) → m = m'
  | [], [], _, _, _, _, _ => rfl
  | [], (k', b') :: m', _, _, _, h', hread => by
    have hb : Config.unlistedByte = b' := by simpa [Memory.read] using hread k'
    exact absurd hb.symm (wfFrom_cons_iff.mp h').2.1
  | (k, b) :: m, [], _, _, h, _, hread => by
    have hb : b = Config.unlistedByte := by simpa [Memory.read] using hread k
    exact absurd hb (wfFrom_cons_iff.mp h).2.1
  | (k, b) :: m, (k', b') :: m', _, _, h, h', hread => by
    obtain ⟨_, hb, hm⟩ := wfFrom_cons_iff.mp h
    obtain ⟨_, hb', hm'⟩ := wfFrom_cons_iff.mp h'
    have hle : k ≤ k' := le_of_read_ne h (by rwa [hread, read_cons_self])
    have hge : k' ≤ k := le_of_read_ne h' (by rwa [← hread, read_cons_self])
    obtain rfl := Nat.le_antisymm hle hge
    obtain rfl : b = b' := by simpa using hread k
    have hrest : m = m' := eq_of_read_eq hm hm' fun j => by
      by_cases hj : k = j
      · rw [read_below hm (hj ▸ Nat.lt_succ_self k), read_below hm' (hj ▸ Nat.lt_succ_self k)]
      · rw [← read_cons_of_ne (b := b) hj, hread j, read_cons_of_ne hj]
    rw [hrest]

/-- Settles O40: the canonical form of a whole buffer starts at offset 0. -/
theorem canonicalBuffersThatReadAlikeAreEqual : Obligations.CanonicalBuffersThatReadAlikeAreEqual :=
  fun _ _ => eq_of_read_eq

/-! ### The placed word (log entry 4) -/

theorem tableWord_toNat (w : Word) : tableWord 16 w.toNat = w := by
  rw [tableWord, Nat.mod_eq_of_lt w.isLt, BitVec.ofNat_toNat, BitVec.setWidth_eq]

/-- The buffer with a word placed holds the word's two bytes at the word pointer and the old bytes elsewhere. -/
theorem read_placeWord {s : State} (hwf : Memory.wf s.ibuf = true) (w : Word) (j : Nat) :
    Memory.read (placeWord w s).ibuf j =
      if j = 2 * s.wp + 1 then secondByte w else if j = 2 * s.wp then firstByte w else Memory.read s.ibuf j := by
  rw [placeWord_ibuf, read_write (write_wf hwf), read_write hwf]

/-- The placed word is the one fetched next. -/
theorem fetch_placeWord {s : State} (hwf : Memory.wf s.ibuf = true) (w : Word) : fetch (placeWord w s) = some w := by
  have hsecond : 2 * (placeWord w s).wp + 1 < (placeWord w s).n := by simp
  rw [fetch, fetchAt_eq hsecond, read_placeWord hwf, read_placeWord hwf]
  simp

/-- Placing a word keeps the canonical form. -/
theorem placeWord_wf {s : State} (hwf : s.wf = true) (w : Word) : (placeWord w s).wf = true := by
  obtain ⟨hcanon, hbelow⟩ := Bool.and_eq_true_iff.mp hwf
  have hgrow : Memory.below s.ibuf (placeWord w s).n = true := by
    simp only [Memory.below, List.all_eq_true, decide_eq_true_eq] at hbelow ⊢
    exact fun c hc => Nat.lt_of_lt_of_le (hbelow c hc) (Nat.le_max_left _ _)
  exact Bool.and_eq_true_iff.mpr
    ⟨write_wf (write_wf hcanon), write_below (write_below hgrow (by simp)) (by simp)⟩

/-- Placing a word changes no other byte that was in the buffer. -/
theorem readByte_placeWord_of_ne {s : State} (hwf : Memory.wf s.ibuf = true) (w : Word) {a : Nat} (ha : a < s.n)
    (hne0 : a ≠ 2 * s.wp) (hne1 : a ≠ 2 * s.wp + 1) : readByte (placeWord w s) a = readByte s a := by
  have ha' : a < (placeWord w s).n := Nat.lt_of_lt_of_le ha (Nat.le_max_left _ _)
  rw [readByte_of_lt ha', readByte_of_lt ha, read_placeWord hwf, if_neg hne1, if_neg hne0]

/-- Settles O41: the word placed is fetched, since it is below NW, and its row is run. -/
theorem placedWordIsTheNextOneRun : Obligations.PlacedWordIsTheNextOneRun := by
  rintro s w _ hwf rfl
  have hcanon : Memory.wf s.ibuf = true := (Bool.and_eq_true_iff.mp hwf).1
  rw [State.withFetchWord, tableWord_toNat]
  have hfetch := fetch_placeWord hcanon w
  refine ⟨stepFrame_process rfl (lt_wordCount_of_fetchAt hfetch).ne hfetch, placeWord_wf hwf w, rfl, rfl, rfl, rfl, rfl,
    rfl, fun a => readByte_placeWord_of_ne hcanon w⟩

/-! ### Words -/

/-- R31: the word at a position is that of its two bytes, and is there when they are. -/
theorem fetchAt_eq_bind (s : State) (p : Nat) :
    fetchAt s p = (readByte s (2 * p)).bind fun b0 => (readByte s (2 * p + 1)).map (wordOfBytes b0) := by
  cases h0 : readByte s (2 * p) <;> cases h1 : readByte s (2 * p + 1) <;> simp [fetchAt, memRead, h0, h1]

/-- R31, R33: word `k` of a byte list, in the same terms. -/
theorem getElem?_wordsOf : ∀ (bytes : List Byte) (k : Nat),
    (wordsOf bytes)[k]? = bytes[2 * k]?.bind fun b0 => bytes[2 * k + 1]?.map (wordOfBytes b0)
  | [], _ => rfl
  | [_], _ => by simp [wordsOf]
  | _ :: _ :: _, 0 => rfl
  | _ :: _ :: rest, k + 1 => getElem?_wordsOf rest k

/-- The words of a supplied buffer are those of the bytes. -/
theorem fetchAt_supply (bytes : List Byte) (s : State) (p : Nat) : fetchAt (supply bytes s) p = (wordsOf bytes)[p]? := by
  rw [fetchAt_eq_bind, getElem?_wordsOf, readByte_supply, readByte_supply]

/-- R33: an odd last byte makes no word. -/
theorem length_wordsOf : ∀ bytes : List Byte, (wordsOf bytes).length = bytes.length / 2
  | [] => rfl
  | [_] => by simp [wordsOf]
  | _ :: _ :: rest => by
    rw [wordsOf, List.length_cons, length_wordsOf rest]
    simp only [List.length_cons]
    omega

/-- After an even number of bytes the words begin afresh. -/
theorem wordsOf_append_of_even : ∀ {bytes : List Byte}, bytes.length % 2 = 0 → ∀ rest : List Byte,
    wordsOf (bytes ++ rest) = wordsOf bytes ++ wordsOf rest
  | [], _, _ => rfl
  | [_], hodd, _ => absurd hodd (by simp)
  | _ :: _ :: bytes, heven, rest => by
    have hbytes : bytes.length % 2 = 0 := by
      simp only [List.length_cons] at heven
      omega
    simp [wordsOf, wordsOf_append_of_even hbytes]

end Sys2Proof.Machine
end

section
/-! A run from its start to its end (spec/43_pipeline_step.md R125 to R127, spec/20_memory.md R33, R39). -/

namespace Sys2Proof.Machine

/-! ### The start -/

/-- Settles O31: reset gives the invariants, and the supplied buffer is canonical. -/
theorem everyRunStartsInTheInvariant : Obligations.EveryRunStartsInTheInvariant :=
  ⟨fun bytes => ⟨runInv_applyReset (supply bytes State.reset), supply_wf bytes State.reset⟩,
    runInv_applyReset State.reset, rfl⟩

/-! ### Several steps -/

theorem runSteps_succ_of_step {s t : State} (h : step s = .next t) (k : Nat) :
    runSteps (k + 1) s = runSteps k t := by
  simp [runSteps, h]

/-- R120: a machine that is not Running stays as it is. -/
theorem runSteps_of_not_running {s : State} (hst : s.st ≠ .running) (k : Nat) : runSteps k s = s := by
  cases k with
  | zero => rfl
  | succ k =>
    unfold runSteps
    split
    · rename_i t hstep
      exact absurd (step_cases hstep).1 hst
    · rfl
    · rfl

/-- R126: the invariants hold along the run. -/
theorem RunInv.runSteps {s : State} (h : RunInv s) (k : Nat) : RunInv (runSteps k s) := by
  induction k generalizing s with
  | zero => exact h
  | succ k ih =>
    unfold Machine.runSteps
    split
    · rename_i t hstep
      exact ih (h.step hstep)
    · exact h
    · exact h

/-- R126: from a running state of a run there is a step. -/
theorem exists_step_of_running {s : State} (hst : s.st = .running) (hwp : s.wp ≤ wordCount s) :
    ∃ t, step s = .next t := by
  rcases Nat.lt_or_eq_of_le hwp with hlt | heq
  · obtain ⟨w, _, hstep⟩ := step_of_lt hst hlt
    cases hout : wordOutcome w with
    | ok line => exact ⟨_, by rw [hstep, hout, conclude_ok]⟩
    | error f => exact ⟨_, by rw [hstep, hout, conclude_error]⟩
  · exact ⟨_, step_of_wp_eq hst heq⟩

/-- R122, R126: a step ends the run or brings `wp` one nearer to NW, which it does not pass. -/
theorem step_ends_or_advances {s t : State} (h : step s = .next t) :
    t.st ≠ .running ∨ (t.st = .running ∧ t.wp = s.wp + 1 ∧ t.wp ≤ wordCount t) := by
  obtain ⟨hst, ⟨_, rfl⟩ | ⟨_, w, hf, ⟨line, _, rfl⟩ | ⟨f, _, rfl⟩⟩⟩ := step_cases_word h
  · exact .inl (by simp)
  · exact .inr ⟨hst, rfl, lt_wordCount_of_fetchAt hf⟩
  · exact .inl (by simp)

/-- No step changes NW. -/
theorem wordCount_of_step {s t : State} (h : step s = .next t) : wordCount t = wordCount s := by
  rw [wordCount, wordCount, (step_keeps_input h).2]

/-- R126: more steps than there are words left end the run. -/
theorem runSteps_ends {k : Nat} : ∀ {s : State}, s.st = .running → s.wp ≤ wordCount s → wordCount s - s.wp < k →
    (runSteps k s).st ≠ .running := by
  induction k with
  | zero => exact fun _ _ hk => absurd hk (Nat.not_lt_zero _)
  | succ k ih =>
    intro s hst hwp hk
    obtain ⟨t, hstep⟩ := exists_step_of_running hst hwp
    rw [runSteps_succ_of_step hstep]
    rcases step_ends_or_advances hstep with hend | ⟨hrun, hadv, hle⟩
    · rwa [runSteps_of_not_running hend]
    · have hnw := wordCount_of_step hstep
      exact ih hrun hle (by omega)

/-- Settles O32: progress, and the bound by the words left. -/
theorem everyRunEnds : Obligations.EveryRunEnds :=
  fun _ hst hwp => ⟨exists_step_of_running hst hwp, runSteps_ends hst hwp (Nat.lt_succ_self _)⟩

/-- Settles O37: after the step `wp` is still at most NW, and it is the old one or one more. -/
theorem wordPointerOfEnoughBitsIsExact : Obligations.WordPointerOfEnoughBitsIsExact := by
  intro p s t hinv hfit hstep
  have hle : t.wp ≤ wordCount s := wordCount_of_step hstep ▸ (hinv.step hstep).wp_le
  refine ⟨?_, ?_⟩
  · rw [BitVec.toNat_ofNat, Nat.mod_eq_of_lt (Nat.lt_of_le_of_lt hle hfit)]
  · rcases wpAndOutMoveTogether s t hstep with ⟨hwp, _⟩ | ⟨hwp, _⟩
    · exact .inr (by rw [hwp, BitVec.ofNat_add])
    · exact .inl (by rw [hwp])

/-! ### The end of a run in closed form (R127) -/

/-- The state after the lines of the words that render. -/
def emitLines (lines : List Line) (s : State) : State := lines.foldl (fun s line => advance (emit line s)) s

/-- The end of a run that starts in `s`, given the lines and the fault of R127's closed form. -/
def endState (s : State) : List Line × Option (Nat × Word × CoreFault) → State
  | (lines, none) => finish (emitLines lines s)
  | (lines, some (_, w, f)) => abort f w (emitLines lines s)

/-- The emitted lines are written to OUT and counted in `wp`, and nothing else is. -/
theorem emitLines_eq (lines : List Line) (s : State) :
    emitLines lines s = { s with out := s.out ++ lines, wp := s.wp + lines.length } := by
  induction lines generalizing s with
  | nil => simp [emitLines]
  | cons line lines ih =>
    rw [emitLines, List.foldl_cons, ← emitLines, ih]
    simp [advance, emit, Nat.add_comm, Nat.add_left_comm]

/-- R127: a word that renders puts its line in front of what the words after it give. -/
theorem closedForm_cons_of_ok {w : Word} {line : Line} (h : wordOutcome w = .ok line) (p : Nat) (ws : List Word) :
    closedForm p (w :: ws) = (line :: (closedForm (p + 1) ws).1, (closedForm (p + 1) ws).2) := by
  simp [closedForm, h]

/-- R127: a word that faults ends the closed form, whatever follows. -/
theorem closedForm_cons_of_error {w : Word} {f : CoreFault} (h : wordOutcome w = .error f) (p : Nat) (ws : List Word) :
    closedForm p (w :: ws) = ([], some (p, w, f)) := by
  simp [closedForm, h]

theorem endState_cons (s : State) (line : Line) (r : List Line × Option (Nat × Word × CoreFault)) :
    endState s (line :: r.1, r.2) = endState (advance (emit line s)) r := by
  obtain ⟨lines, fault⟩ := r
  cases fault <;> rfl

/-- The end state does not depend on the buffer, which it keeps. -/
theorem endState_supply (bytes : List Byte) (s : State) (r : List Line × Option (Nat × Word × CoreFault)) :
    endState (supply bytes s) r = supply bytes (endState s r) := by
  obtain ⟨lines, fault⟩ := r
  cases fault <;> simp only [endState, emitLines_eq] <;> rfl

/-- R127: the run over the words `ws` from `wp` on, to its end. -/
theorem runSteps_eq_endState (ws : List Word) : ∀ s : State, s.st = .running → wordCount s = s.wp + ws.length →
    (∀ k, k < ws.length → fetchAt s (s.wp + k) = ws[k]?) →
    runSteps (ws.length + 1) s = endState s (closedForm s.wp ws) := by
  induction ws with
  | nil => exact fun s hst hnw _ => runSteps_succ_of_step (step_of_wp_eq hst hnw.symm) 0
  | cons w ws ih =>
    intro s hst hnw hwords
    have hfetch : fetch s = some w := hwords 0 (Nat.zero_lt_succ _)
    have hstep := step_of_fetch hst (lt_wordCount_of_fetchAt hfetch).ne hfetch
    cases hout : wordOutcome w with
    | error f =>
      rw [hout, conclude_error] at hstep
      rw [runSteps_succ_of_step hstep, runSteps_of_not_running (by simp), closedForm_cons_of_error hout]
      rfl
    | ok line =>
      rw [hout, conclude_ok] at hstep
      have hcount : wordCount (advance (emit line s)) = (advance (emit line s)).wp + ws.length :=
        hnw.trans (Nat.add_right_comm s.wp ws.length 1)
      have hrest : ∀ k, k < ws.length →
          fetchAt (advance (emit line s)) ((advance (emit line s)).wp + k) = ws[k]? := fun k hk => by
        rw [advance_wp, emit_wp, Nat.add_assoc, Nat.add_comm 1 k]
        exact hwords (k + 1) (Nat.succ_lt_succ hk)
      rw [List.length_cons, runSteps_succ_of_step hstep, ih (advance (emit line s)) hst hcount hrest,
        closedForm_cons_of_ok hout, endState_cons, advance_wp, emit_wp]

/-- The run from a supplied buffer is over the words of its bytes. -/
theorem wordCount_startRun (bytes : List Byte) : wordCount (startRun bytes) = (wordsOf bytes).length :=
  (length_wordsOf bytes).symm

theorem fetchAt_startRun (bytes : List Byte) (p : Nat) : fetchAt (startRun bytes) p = (wordsOf bytes)[p]? :=
  fetchAt_supply bytes State.reset p

/-- R126, R127: the run of a supplied buffer ends in the closed form of its words. The buffer plays no other part. -/
theorem endOfRun_startRun (bytes : List Byte) :
    endOfRun (startRun bytes) = supply bytes (endState State.reset (closedForm 0 (wordsOf bytes))) := by
  have hrun := runSteps_eq_endState (wordsOf bytes) (startRun bytes) rfl
    ((wordCount_startRun bytes).trans (Nat.zero_add _).symm)
    fun k _ => (congrArg _ (Nat.zero_add k)).trans (fetchAt_startRun bytes k)
  rw [endOfRun, wordCount_startRun, hrun]
  exact endState_supply bytes State.reset _

/-- R126: the end of a run has the run's invariants. -/
theorem runInv_endOfRun (bytes : List Byte) : RunInv (endOfRun (startRun bytes)) :=
  (runInv_applyReset _).runSteps _

/-- R123, R124: a run ends in Done or Fault, as its closed form has no fault or one. -/
theorem endState_st (s : State) (r : List Line × Option (Nat × Word × CoreFault)) :
    (endState s r).st = if r.2.isSome then .fault else .done := by
  obtain ⟨lines, fault⟩ := r
  cases fault <;> rfl

/-- R124: a fault in the closed form is taken after the lines before it. -/
theorem endState_of_fault {r : List Line × Option (Nat × Word × CoreFault)} {p : Nat} {w : Word} {f : CoreFault}
    (h : r.2 = some (p, w, f)) (s : State) : endState s r = abort f w (emitLines r.1 s) := by
  obtain ⟨lines, fault⟩ := r
  subst h
  rfl

/-- R37: the lines of the closed form are those emitted. -/
theorem endState_out (s : State) (r : List Line × Option (Nat × Word × CoreFault)) :
    (endState s r).out = s.out ++ r.1 := by
  obtain ⟨lines, fault⟩ := r
  cases fault <;> simp [endState, emitLines_eq]

/-- R127: the fault of the closed form is at the position after its lines. -/
theorem position_of_closedForm {ws : List Word} : ∀ {p q : Nat} {w : Word} {f : CoreFault},
    (closedForm p ws).2 = some (q, w, f) → q = p + (closedForm p ws).1.length := by
  induction ws with
  | nil => exact fun h => by simp [closedForm] at h
  | cons v ws ih =>
    intro p q w f h
    cases hout : wordOutcome v with
    | ok line =>
      rw [closedForm_cons_of_ok hout] at h ⊢
      rw [ih h, List.length_cons, Nat.add_right_comm, Nat.add_assoc]
    | error g =>
      rw [closedForm_cons_of_error hout] at h ⊢
      exact (congrArg Prod.fst (Option.some.inj h)).symm

/-- Settles O33: the items are read off the end state, and `wp` off the invariants or the fault's position. -/
theorem runInClosedForm : Obligations.RunInClosedForm := by
  rintro bytes _ rfl
  have hinv := runInv_endOfRun bytes
  rw [endOfRun_startRun] at hinv ⊢
  refine ⟨endState_out State.reset _, fun hnone => ?_, fun p w f hsome => ?_⟩
  · have hst : (supply bytes (endState State.reset (closedForm 0 (wordsOf bytes)))).st = .done := by
      simp [endState_st, hnone]
    exact ⟨hst, hinv.done_wp hst, hinv.faultCode_eq_zero fun h => Status.noConfusion (hst.symm.trans h)⟩
  · have hwp : (emitLines (closedForm 0 (wordsOf bytes)).1 State.reset).wp = p := by
      rw [emitLines_eq, position_of_closedForm hsome]
      rfl
    rw [endState_of_fault hsome]
    exact ⟨rfl, hwp, hwp, rfl, rfl⟩

/-- R126: at the end of a run ST is Done or Fault. -/
theorem endOfRun_not_running (bytes : List Byte) : (endOfRun (startRun bytes)).st ≠ .running := by
  rw [endOfRun_startRun, supply_st, endState_st]
  split <;> simp

/-- A word read at the end of a run is the buffer's. -/
theorem fetchAt_endOfRun (bytes : List Byte) (p : Nat) :
    fetchAt (endOfRun (startRun bytes)) p = (wordsOf bytes)[p]? := by
  rw [endOfRun_startRun, fetchAt_supply]

/-- Settles O34: the invariants of the run at its end, with the words read back as the buffer's. -/
theorem linesStandForTheirWordsInOrder : Obligations.LinesStandForTheirWordsInOrder := by
  rintro bytes _ rfl
  have hinv := runInv_endOfRun bytes
  have hnw : wordCount (endOfRun (startRun bytes)) = bytes.length / 2 := by
    rw [endOfRun_startRun]
    rfl
  refine ⟨endOfRun_not_running bytes, fun k line hline => ?_, fun hfault => ?_, fun hdone => ?_⟩
  · have hk := (List.getElem?_eq_some_iff.mp hline).1
    obtain ⟨w, line', hw, hout, hline'⟩ := hinv.out_line k (hinv.out_length ▸ hk)
    obtain rfl : line' = line := Option.some.inj (hline'.symm.trans hline)
    exact ⟨w, (fetchAt_endOfRun bytes k).symm.trans hw, hout⟩
  · obtain ⟨hpos, _, hword, f, hout, _⟩ := hinv.fault_record hfault
    refine ⟨hinv.out_length.trans hpos.symm, f, ?_, hout⟩
    rw [← fetchAt_endOfRun, hpos, hword]
  · rw [hinv.out_length, hinv.done_wp hdone, hnw]

/-- Settles O35: the words of the two buffers are the same, and the end of the run depends on them alone. -/
theorem trailingByteHasNoInfluence : Obligations.TrailingByteHasNoInfluence := by
  rintro bytes b _ _ heven rfl rfl
  have hwords : wordsOf (bytes ++ [b]) = wordsOf bytes := by
    rw [wordsOf_append_of_even heven]
    exact List.append_nil _
  have hnw : (bytes ++ [b]).length / 2 = bytes.length / 2 := by
    rw [← length_wordsOf, hwords, length_wordsOf]
  rw [endOfRun_startRun, endOfRun_startRun, hwords]
  exact ⟨hnw, rfl, rfl, rfl, rfl, rfl, rfl, rfl⟩

/-- R127: what follows a word that faults does not change the closed form, which has a fault. -/
theorem closedForm_append_of_error {w : Word} {f : CoreFault} (h : wordOutcome w = .error f) (before after : List Word) :
    ∀ p, closedForm p (before ++ w :: after) = closedForm p (before ++ [w]) ∧
      (closedForm p (before ++ [w])).2.isSome = true := by
  induction before with
  | nil => exact fun p => by simp [closedForm_cons_of_error h]
  | cons v before ih =>
    intro p
    cases hout : wordOutcome v with
    | ok line => simpa [closedForm_cons_of_ok hout, (ih (p + 1)).1] using (ih (p + 1)).2
    | error g => simp [closedForm_cons_of_error hout]

/-- Settles O36: both buffers have the closed form that ends with the faulting word. -/
theorem bytesAfterAFaultHaveNoEffect : Obligations.BytesAfterAFaultHaveNoEffect := by
  rintro before after after' b0 b1 f _ _ heven hout rfl rfl
  have hform (rest : List Byte) := closedForm_append_of_error hout (wordsOf before) (wordsOf rest) 0
  have hend (rest : List Byte) : endOfRun (startRun (before ++ b0 :: b1 :: rest)) =
      supply (before ++ b0 :: b1 :: rest)
        (endState State.reset (closedForm 0 (wordsOf before ++ [wordOfBytes b0 b1]))) := by
    rw [endOfRun_startRun, wordsOf_append_of_even heven, wordsOf, (hform rest).1]
  rw [hend after, hend after']
  exact ⟨by simp [endState_st, (hform after).2], rfl, rfl, rfl, rfl, rfl, rfl, rfl⟩

end Sys2Proof.Machine
end

section
/-! The decoder over all words (spec/40_decoder.md R71 to R79). -/

namespace Sys2Proof.Machine

/-- R75: `Decode` answers a record exactly on the words with the MOV opcode, made of the five fields as numbers. -/
theorem decodeRecord_ok_iff {w : Word} {I : InstructionRecord} :
    decodeRecord w = .ok I ↔ w.toNat / 1024 = 34 ∧ I =
      { opcode := .mov
        direction := if w.toNat / 512 % 2 = 0 then .toRegister else .fromRegister
        wide := decide (w.toNat / 256 % 2 = 1)
        mode := if w.toNat / 64 % 4 = 3 then .register else .memory
        register1 := w.toNat / 8 % 8
        register2 := w.toNat % 8 } := by
  obtain ⟨hother, hmov⟩ := decodeReadsEachFieldByPosition w
  by_cases hop : w.toNat / 1024 = 34
  · simp [hmov hop, hop, eq_comm]
  · simp [hother hop, hop]

/-- Settles O6: each field of the record is a function of its own bits, and so is success. -/
theorem eachFieldDependsOnlyOnItsOwnBits : Obligations.EachFieldDependsOnlyOnItsOwnBits := by
  refine fun w v => ⟨fun hop => by simp [decodeRecord_ok_iff, hop], fun I J hI hJ => ?_⟩
  obtain ⟨_, rfl⟩ := decodeRecord_ok_iff.mp hI
  obtain ⟨_, rfl⟩ := decodeRecord_ok_iff.mp hJ
  exact ⟨rfl, fun h => by rw [h], fun h => by rw [h], fun h => by rw [h], id, id⟩

/-- Settles O7: the record of a word's row, and selectors that are remainders by 8. -/
theorem tableDecoderAgreesWithDecode : Obligations.TableDecoderAgreesWithDecode := by
  refine fun w => ⟨record_decodeWord w, fun I hI => ?_⟩
  obtain ⟨_, rfl⟩ := decodeRecord_ok_iff.mp hI
  have hselector (n : Nat) : n % 8 ≤ 7 := Nat.le_of_lt_succ (Nat.mod_lt n (by decide))
  exact wf_iff_selectors_le.mpr ⟨hselector _, hselector _⟩

/-! ### Counts (30_encoding.md section 3) -/

/-- R53: a word that does not decode has another opcode. -/
theorem decodeRecord_error_iff {w : Word} : decodeRecord w = .error (.unknownOpcode w) ↔ ¬ w.toNat / 1024 = 34 := by
  by_cases hop : w.toNat / 1024 = 34
  · simp [decodeRecord_mov hop, hop]
  · simp [decodeRecord_other hop, hop]

theorem decodeRecord_isOk_iff {w : Word} : (decodeRecord w).isOk = true ↔ w.toNat / 1024 = 34 := by
  by_cases hop : w.toNat / 1024 = 34
  · simp [decodeRecord_mov hop, hop, Except.isOk, Except.toBool]
  · simp [decodeRecord_other hop, hop, Except.isOk, Except.toBool]

/-- R80: exactly the register-mode words render. -/
theorem wordOutcome_isOk_iff {w : Word} :
    (wordOutcome w).isOk = true ↔ w.toNat / 1024 = 34 ∧ w.toNat / 64 % 4 = 3 := by
  obtain ⟨hother, hmem, hreg⟩ := everyWordHasOneOfThreeOutcomes w
  by_cases hop : w.toNat / 1024 = 34
  · by_cases hmod : w.toNat / 64 % 4 = 3
    · obtain ⟨_, line, hout⟩ := hreg hop hmod
      simp [hout, hop, hmod, Except.isOk, Except.toBool]
    · simp [(hmem hop hmod).2, hmod, Except.isOk, Except.toBool]
  · simp [(hother hop).2, hop, Except.isOk, Except.toBool]

/-- R81: exactly the memory-mode words end in UnsupportedMode. -/
theorem wordOutcome_unsupportedMode_iff {w : Word} :
    wordOutcome w = .error .unsupportedMode ↔ w.toNat / 1024 = 34 ∧ ¬ w.toNat / 64 % 4 = 3 := by
  obtain ⟨hother, hmem, hreg⟩ := everyWordHasOneOfThreeOutcomes w
  by_cases hop : w.toNat / 1024 = 34
  · by_cases hmod : w.toNat / 64 % 4 = 3
    · obtain ⟨_, line, hout⟩ := hreg hop hmod
      simp [hout, hmod]
    · simp [(hmem hop hmod).2, hop, hmod]
  · simp [(hother hop).2, hop]

/-- A number below 65536 is the number of its word. -/
theorem toNat_ofNat_of_mem_range {n : Nat} (h : n ∈ Finset.range 65536) : (BitVec.ofNat 16 n).toNat = n :=
  (BitVec.toNat_ofNat n 16).trans (Nat.mod_eq_of_lt (Finset.mem_range.mp h))

/-- The numbers of the words with the MOV opcode. -/
theorem range_filter_mov : ((Finset.range 65536).filter fun n => n / 1024 = 34) = Finset.Ico 34816 35840 := by
  ext n
  simp only [Finset.mem_filter, Finset.mem_range, Finset.mem_Ico]
  omega

theorem card_mov : ((Finset.range 65536).filter fun n => n / 1024 = 34).card = 1024 := by
  rw [range_filter_mov, Nat.card_Ico]

/-- The register-mode words are numbered by their D and W bits and by their two selectors. -/
theorem card_mov_register :
    ((Finset.range 65536).filter fun n => n / 1024 = 34 ∧ n / 64 % 4 = 3).card = 256 := by
  have hpairs : (Finset.range 4 ×ˢ Finset.range 64).card = 256 := by
    rw [Finset.card_product, Finset.card_range, Finset.card_range]
  rw [← hpairs]
  refine Finset.card_nbij' (fun n => (n / 256 % 4, n % 64)) (fun p => 0x88C0 + 256 * p.1 + p.2) ?_ ?_ ?_ ?_
  · exact fun n _ => Finset.mem_product.mpr
      ⟨Finset.mem_range.mpr (Nat.mod_lt _ (by decide)), Finset.mem_range.mpr (Nat.mod_lt _ (by decide))⟩
  · rintro ⟨a, b⟩ hp
    obtain ⟨h1, h2⟩ := Finset.mem_product.mp hp
    rw [Finset.mem_range] at h1 h2
    have hword : 0x88C0 + 256 * a + b < 65536 ∧ (0x88C0 + 256 * a + b) / 1024 = 34 ∧
        (0x88C0 + 256 * a + b) / 64 % 4 = 3 := by
      dsimp only at h1 h2
      omega
    exact Finset.mem_filter.mpr ⟨Finset.mem_range.mpr hword.1, hword.2⟩
  · intro n hn
    obtain ⟨_, hop, hmod⟩ := Finset.mem_filter.mp hn
    show 0x88C0 + 256 * (n / 256 % 4) + n % 64 = n
    omega
  · rintro ⟨a, b⟩ hp
    obtain ⟨h1, h2⟩ := Finset.mem_product.mp hp
    rw [Finset.mem_range] at h1 h2
    have hfields : (0x88C0 + 256 * a + b) / 256 % 4 = a ∧ (0x88C0 + 256 * a + b) % 64 = b := by
      dsimp only at h1 h2
      omega
    exact Prod.ext hfields.1 hfields.2

/-- The complement of a counted part, for any set and property, so that no count of a concrete set is unfolded. -/
theorem card_filter_not {s : Finset Nat} {P : Nat → Prop} [DecidablePred P] {a c : Nat} (h : (s.filter P).card = a)
    (hs : s.card = a + c) : (s.filter fun n => ¬ P n).card = c := by
  have hsum := Finset.card_filter_add_card_filter_not (s := s) P
  omega

theorem card_not_mov : ((Finset.range 65536).filter fun n => ¬ n / 1024 = 34).card = 64512 :=
  card_filter_not card_mov (Finset.card_range 65536)

theorem card_mov_memory : ((Finset.range 65536).filter fun n => n / 1024 = 34 ∧ ¬ n / 64 % 4 = 3).card = 768 := by
  rw [← Finset.filter_filter]
  exact card_filter_not (by rw [Finset.filter_filter, card_mov_register]) card_mov

/-- Settles O8: each count over the words is one over numbers, by what tells the words apart. -/
theorem countsOverAllWords : Obligations.CountsOverAllWords := by
  refine ⟨?_, ?_, ?_, ?_⟩
  · rw [Finset.filter_congr fun n hn => by rw [decodeRecord_isOk_iff, toNat_ofNat_of_mem_range hn], card_mov]
  · rw [Finset.filter_congr fun n hn => by rw [decodeRecord_error_iff, toNat_ofNat_of_mem_range hn], card_not_mov]
  · rw [Finset.filter_congr fun n hn => by rw [wordOutcome_isOk_iff, toNat_ofNat_of_mem_range hn], card_mov_register]
  · rw [Finset.filter_congr fun n hn => by rw [wordOutcome_unsupportedMode_iff, toNat_ofNat_of_mem_range hn],
      card_mov_memory]

end Sys2Proof.Machine
end

section
/-! The ROM's words and the rendered lines, as characters and at the ports (spec/41_register_name_rom.md R92,
spec/42_renderer.md R104 to R109). -/

namespace Sys2Proof.Machine

/-! ### The ROM (R92) -/

/-- The ROM word of a name: its two codes, first character in the upper byte. -/
def packName : Line → BitVec 16
  | [c0, c1] => charCode c0 ++ charCode c1
  | _ => 0

/-- R92: the ROM holds the two columns of names, narrow first. -/
theorem romContents_eq : romContents = (narrowNames ++ wideNames).map packName := by decide

/-- R92: `{wide, sel}` as a number. -/
theorem toNat_romAddress (wide : Bool) (sel : BitVec 3) :
    (romAddress wide sel).toNat = 8 * wide.toNat + sel.toNat := by
  rw [romAddress, append_toNat, BitVec.toNat_ofBool]
  omega

/-- R92: the ROM answers the packed name of its address. -/
theorem romRead_romAddress {wide : Bool} {sel : BitVec 3} {n : Line} (h : name sel.toNat wide = .ok n) :
    romRead (romAddress wide sel) = packName n := by
  rw [romRead, toNat_romAddress, romContents_eq, List.getD_eq_getElem?_getD, List.getElem?_map,
    columns_getElem?_of_name_ok h]
  rfl

/-- R92: a port's selector in range reads the packed name. -/
theorem romPorts_of_name {k : Nat} {sel : BitVec k} {wide : Bool} {n : Line} (h : name sel.toNat wide = .ok n) :
    romPorts k sel wide = { errInvalidIndex := 0, data := some (packName n) } := by
  have hle : sel.toNat ≤ 7 := le_of_name_ok h
  have hsel : (BitVec.ofNat 3 sel.toNat).toNat = sel.toNat := by
    rw [BitVec.toNat_ofNat, Nat.mod_eq_of_lt (Nat.lt_succ_of_le hle)]
  rw [romPorts, if_neg (Nat.not_lt.mpr hle), romRead_romAddress (hsel.symm ▸ h)]

/-- Settles O11: every selector in range has a name of two characters, which the ROM packs. -/
theorem romPortsPackTheNames : Obligations.RomPortsPackTheNames := by
  refine ⟨rfl, fun wide sel => ⟨toNat_romAddress wide sel, ?_⟩, fun k sel wide => ⟨fun hgt => if_pos hgt, fun hle => ?_⟩⟩
  · obtain ⟨c0, c1, hname⟩ := name_of_le wide (Nat.le_of_lt_succ sel.isLt)
    exact ⟨c0, c1, hname, romRead_romAddress hname⟩
  · obtain ⟨c0, c1, hname⟩ := name_of_le wide hle
    exact ⟨c0, c1, hname, romPorts_of_name hname⟩

/-! ### Lines as characters (R107, R108) -/

/-- R107: the fifteen characters of the output. -/
def outputChars : List Char := [' ', ',', 'a', 'b', 'c', 'd', 'h', 'i', 'l', 'm', 'o', 'p', 's', 'v', 'x']

/-- R107: the fifteen characters with their codes. -/
def codedChars : List (Char × BitVec 8) := outputChars.map fun c => (c, charCode c)

theorem mem_codedChars {c : Char} (h : c ∈ outputChars) : (c, charCode c) ∈ codedChars := List.mem_map_of_mem h

/-- R107: the names are spelled with the fifteen characters. -/
theorem columns_subset_outputChars : ∀ n ∈ narrowNames ++ wideNames, ∀ c ∈ n, c ∈ outputChars := by
  simp [narrowNames, wideNames, outputChars]

theorem mem_outputChars_of_name_ok {i : Nat} {wide : Bool} {n : Line} (h : name i wide = .ok n) {c : Char}
    (hc : c ∈ n) : c ∈ outputChars :=
  columns_subset_outputChars n (List.mem_of_getElem? (columns_getElem?_of_name_ok h)) c hc

/-- R104, R107: so are the mnemonic and the separators. -/
theorem fixed_subset_outputChars : ['m', 'o', 'v', ' '] ⊆ outputChars ∧ [',', ' '] ⊆ outputChars := by decide

/-- R100: a rendered line is made of two names of the record's width. -/
theorem names_of_render_ok {I : InstructionRecord} {line : Line} (h : render I = .ok line) :
    ∃ n1 n2, name (operandOrder I).1 I.wide = .ok n1 ∧ name (operandOrder I).2 I.wide = .ok n2 ∧
      line = ['m', 'o', 'v', ' '] ++ n1 ++ [',', ' '] ++ n2 := by
  rcases render_cases I with ⟨_, hr⟩ | ⟨_, i, _, _, hr⟩ | ⟨_, _, _, n1, n2, hn1, hn2, hr⟩
  · simp [hr] at h
  · simp [hr] at h
  · exact ⟨n1, n2, hn1, hn2, (Except.ok.inj (h.symm.trans hr)).trans (formatLine_eq _ _ _)⟩

/-- Settles O13: the two names have two characters each, so every place of the line is fixed. -/
theorem everyLineHasTenCharactersOfTheFifteen : Obligations.EveryLineHasTenCharactersOfTheFifteen := by
  intro I line hren
  obtain ⟨n1, n2, hn1, hn2, rfl⟩ := names_of_render_ok hren
  obtain ⟨a1, b1, rfl⟩ := List.length_eq_two.mp (length_of_name_ok hn1)
  obtain ⟨a2, b2, rfl⟩ := List.length_eq_two.mp (length_of_name_ok hn2)
  refine ⟨rfl, rfl, rfl, fun c hc => mem_codedChars ?_⟩
  simp only [List.mem_append] at hc
  rcases hc with ((hc | hc) | hc) | hc
  · exact fixed_subset_outputChars.1 hc
  · exact mem_outputChars_of_name_ok hn1 hc
  · exact fixed_subset_outputChars.2 hc
  · exact mem_outputChars_of_name_ok hn2 hc

/-! ### Lines as functions of the word (R65) -/

/-- R91: a column entry below 8 determines its index and its width. -/
theorem columnName_inj {w w' : Bool} {r r' : BitVec 3} :
    columnName w r.toNat = columnName w' r'.toNat ↔ w = w' ∧ r = r' := by
  refine ⟨fun h => ?_, fun ⟨hw, hr⟩ => by rw [hw, hr]⟩
  have hn := name_eq_columnName w (Nat.le_of_lt_succ r.isLt)
  have hn' := name_eq_columnName w' (Nat.le_of_lt_succ r'.isLt)
  obtain ⟨hr, hw⟩ := name_ok_inj (h ▸ hn) hn'
  exact ⟨hw, BitVec.eq_of_toNat_eq hr⟩

theorem length_columnName (w : Bool) (r : BitVec 3) : (columnName w r.toNat).length = Config.nameChars :=
  length_of_name_ok (name_eq_columnName w (Nat.le_of_lt_succ r.isLt))

/-- R104: a line determines its two names in their order. -/
theorem formatLine_columnName_inj {w w' : Bool} {r1 r2 r1' r2' : BitVec 3} :
    formatLine .mov (columnName w r1.toNat) (columnName w r2.toNat) =
        formatLine .mov (columnName w' r1'.toNat) (columnName w' r2'.toNat) ↔
      w = w' ∧ r1 = r1' ∧ r2 = r2' := by
  refine ⟨fun h => ?_, fun ⟨hw, h1, h2⟩ => by rw [hw, h1, h2]⟩
  simp only [formatLine_eq, List.append_assoc] at h
  have hnames := List.append_inj (List.append_cancel_left h) (by simp only [length_columnName])
  obtain ⟨hw, h1⟩ := columnName_inj.mp hnames.1
  exact ⟨hw, h1, (columnName_inj.mp (List.append_cancel_left hnames.2)).2⟩

/-- Settles O14: equal lines have equal names in order, and the direction decides which register is which. -/
theorem twoWordsShareALineExactlyWhenExchanged : Obligations.TwoWordsShareALineExactlyWhenExchanged := by
  intro d d' w w' r1 r2 r1' r2'
  rw [wordOutcome_encode rfl, wordOutcome_encode rfl, instrOutcome_movRegister, instrOutcome_movRegister,
    Except.ok.injEq]
  cases d <;> cases d' <;> simp [movLine, formatLine_columnName_inj, and_comm]

/-! ### Lines at the ports (R109) -/

/-- R107: the codes of the fixed characters of a line. -/
theorem toNat_charCode_fixed :
    (charCode 'm').toNat = 0x6D ∧ (charCode 'o').toNat = 0x6F ∧ (charCode 'v').toNat = 0x76 ∧
      (charCode ' ').toNat = 0x20 ∧ (charCode ',').toNat = 0x2C := by decide

/-- R109: a code is put behind the bits of the line so far. -/
theorem toNat_shiftLeft_or_code (acc : BitVec 80) (code : BitVec 8) :
    (acc <<< 8 ||| code.setWidth 80).toNat = (acc.toNat * 256 + code.toNat) % 2 ^ 80 := by
  have hcode := code.isLt
  have hmod : acc.toNat <<< 8 % 2 ^ 80 = (acc.toNat % 2 ^ 72) <<< 8 := by
    rw [Nat.shiftLeft_eq, Nat.shiftLeft_eq]
    omega
  rw [BitVec.toNat_or, BitVec.toNat_shiftLeft, BitVec.toNat_setWidth, Nat.mod_eq_of_lt (by omega : code.toNat < 2 ^ 80),
    hmod, ← Nat.shiftLeft_add_eq_or_of_lt hcode, Nat.shiftLeft_eq]
  omega

/-- R108, R109: the ten codes of a line with names of two characters, as one number of 80 bits. -/
theorem lineBits_formatLine (a b c d : Char) :
    lineBits (formatLine .mov [a, b] [c, d]) = linePort (packName [a, b]) (packName [c, d]) := by
  obtain ⟨hm, ho, hv, hspace, hcomma⟩ := toNat_charCode_fixed
  apply BitVec.eq_of_toNat_eq
  simp only [lineBits, formatLine_eq, List.foldl, List.cons_append, List.nil_append, toNat_shiftLeft_or_code, hm, ho, hv,
    hspace, hcomma, linePort, packName, append_toNat]
  have hhead : (0x6D6F7620 : BitVec 32).toNat = 0x6D6F7620 := rfl
  have hsep : (0x2C20 : BitVec 16).toNat = 0x2C20 := rfl
  have hnil : (0 : BitVec 80).toNat = 0 := rfl
  rw [hhead, hsep, hnil]
  omega

/-- R71: the decoder's outputs for the MOV opcode. -/
theorem decoderPorts_mov {w : Word} (h : w.toNat / 1024 = 34) :
    decoderPorts w = { errUnknownOpcode := 0
                       record := some { opcode := .mov, direction := directionField w, wide := wideField w,
                                        mode := modePort w, register1 := register1Field w,
                                        register2 := register2Field w } } := by
  simp [decoderPorts, recognise_mov h]

/-- R71: the decoder's error for every other opcode. -/
theorem decoderPorts_other {w : Word} (h : w.toNat / 1024 ≠ 34) :
    decoderPorts w = { errUnknownOpcode := 1, record := none } := by
  simp [decoderPorts, recognise_other h]

/-- R71: the mode output is bit 7 AND bit 6. -/
theorem toNat_modePort (w : Word) : (modePort w).toNat = (w.toNat / 128 % 2) * (w.toNat / 64 % 2) := by
  have hand : ∀ x y : BitVec 1, (x &&& y).toNat = x.toNat * y.toNat := by decide
  simp [modePort, hand, BitVec.extractLsb'_toNat, Nat.shiftRight_eq_div_pow]

/-- Settles O43: the outputs are the fields, whose numbers are known. -/
theorem decoderPortsCopyTheFields : Obligations.DecoderPortsCopyTheFields :=
  fun w => ⟨decoderPorts_other, fun hop => ⟨_, decoderPorts_mov hop, rfl, directionField_toNat w, wideField_toNat w,
    toNat_modePort w, register1Field_toNat w, register2Field_toNat w⟩⟩

/-- R56, R71: the mode output is 0 exactly for the memory modes. -/
theorem modePort_eq_zero_iff {w : Word} : modePort w = 0 ↔ w.toNat / 64 % 4 ≠ 3 := by
  rw [← BitVec.toNat_inj, toNat_modePort, show (0 : BitVec 1).toNat = 0 from rfl, Nat.mul_eq_zero]
  omega

/-- R82: an unknown opcode uses no other block. -/
theorem wordPorts_other {w : Word} (h : w.toNat / 1024 ≠ 34) : wordPorts w = none := by
  rw [wordPorts, decoderPorts_other h]
  rfl

/-- R101, R109: in memory mode the renderer raises its error. -/
theorem wordPorts_memory {w : Word} (hop : w.toNat / 1024 = 34) (hmod : w.toNat / 64 % 4 ≠ 3) :
    wordPorts w = some { errUnsupportedMode := 1, errInvalidIndex := 0, line := none } := by
  simp [wordPorts, decoderPorts_mov hop, rendererPorts, modePort_eq_zero_iff.mpr hmod]

/-- R92: a 3-bit selector always reads its column's entry. -/
theorem romPorts_register (wide : Bool) (sel : BitVec 3) :
    romPorts 3 sel wide = { errInvalidIndex := 0, data := some (packName (columnName wide sel.toNat)) } :=
  romPorts_of_name (name_eq_columnName wide (Nat.le_of_lt_succ sel.isLt))

/-- R109: the line's bits with the ROM words of its two names. -/
theorem lineBits_columnNames (wide : Bool) (r r' : BitVec 3) :
    lineBits (formatLine .mov (columnName wide r.toNat) (columnName wide r'.toNat)) =
      linePort (packName (columnName wide r.toNat)) (packName (columnName wide r'.toNat)) := by
  obtain ⟨a, b, h1⟩ := List.length_eq_two.mp (length_columnName wide r)
  obtain ⟨c, d, h2⟩ := List.length_eq_two.mp (length_columnName wide r')
  rw [h1, h2, lineBits_formatLine]

/-- R80: the line of a register-mode word by its fields. -/
theorem wordOutcome_register {w : Word} (hop : w.toNat / 1024 = 34) (hmod : w.toNat / 64 % 4 = 3) :
    wordOutcome w = .ok (movLine (directionOf (directionField w)) (wideOf (wideField w)) (register1Field w)
      (register2Field w)) := by
  have hfield : modeField w = 0b11#2 := BitVec.eq_of_toNat_eq ((modeField_toNat w).trans hmod)
  rw [← instrOutcome_decodeWord, decodeWord_mov hop, ← instrOutcome_movRegister]
  simp [decodeMov, hfield]

/-- R102, R109: in register mode the renderer's line has the two names in the order of the D bit. -/
theorem wordPorts_register {w : Word} (hop : w.toNat / 1024 = 34) (hmod : w.toNat / 64 % 4 = 3) :
    wordPorts w = some
      { errUnsupportedMode := 0, errInvalidIndex := 0
        line := some (lineBits (movLine (directionOf (directionField w)) (wideOf (wideField w)) (register1Field w)
          (register2Field w))) } := by
  have hmode : ¬ modePort w = 0#1 := fun h => modePort_eq_zero_iff.mp h hmod
  by_cases hdir : directionField w = 0#1 <;>
    simp [wordPorts, decoderPorts_mov hop, romRequest, rendererPorts, hmode, hdir, romPorts_register, directionOf,
      movLine, lineBits_columnNames]

/-- Settles O44: the outcome and the ports agree on each of the three kinds of words. -/
theorem portsCarryTheLineOfTheFunctions : Obligations.PortsCarryTheLineOfTheFunctions := by
  intro w
  obtain ⟨hother, hmem, _⟩ := everyWordHasOneOfThreeOutcomes w
  by_cases hop : w.toNat / 1024 = 34
  · by_cases hmod : w.toNat / 64 % 4 = 3
    · simp [wordOutcome_register hop hmod, wordPorts_register hop hmod]
    · simp [(hmem hop hmod).2, wordPorts_memory hop hmod]
  · simp [(hother hop).2, wordPorts_other hop, decoderPorts_other hop]

end Sys2Proof.Machine
end

section
/-! The host's side and BitPacker (spec/60_exceptions.md R154, spec/70_reset_and_hazards.md R185,
spec/44_bitpacker_companion.md R145). -/

namespace Sys2Proof.Machine

/-! ### The host (R154, R185) -/

/-- R185: one more line in OUT is that line and its terminator at the end of the output. -/
theorem hostStdout_append (p : Config.HostParams) (s : State) (line : Line) :
    hostStdout p { s with out := s.out ++ [line] } = hostStdout p s ++ line ++ p.lineTerm := by
  simp [hostStdout]

/-- Settles O42: the host's exit and diagnostic by the three values of ST, and its output line by line. -/
theorem hostReadsTheEndOfARun : Obligations.HostReadsTheEndOfARun := by
  refine ⟨fun p s => ⟨fun hfault => ⟨⟨_, p.exitCodeFail_ne_zero, ?_⟩, ?_⟩, fun hdone => ?_, fun hrun => ?_,
    hostStdout_append p s⟩, rfl, fun _ => rfl⟩
  · simp [hostExit, hfault]
  · simp [hostDiagnostic, hfault]
  · simp [hostExit, hostDiagnostic, hdone]
  · simp [hostExit, hostDiagnostic, hrun]

/-! ### A packed word (R145) -/

/-- The bits of a bit vector, most significant first. -/
def bitsBE {n : Nat} (x : BitVec n) : List Bool := (List.range n).map fun j => x.getLsbD (n - 1 - j)

@[simp] theorem length_bitsBE {n : Nat} (x : BitVec n) : (bitsBE x).length = n := by
  simp [bitsBE]

/-- R141: a byte's own bits pack to the byte. -/
theorem accOfBits_bitsBE (b : Byte) : accOfBits (bitsBE b) = b := by
  refine BitVec.eq_of_getLsbD_eq fun i hi => ?_
  have hplace : 7 - (7 - i) = i := by omega
  have hlt : 7 - i < 8 := by omega
  have hbit := getLsbD_accOfBits_of_full (length_bitsBE b) hlt
  simpa [bitsBE, hplace, hlt] using hbit

/-- R32: a word's bits are those of its first byte and then those of its second. -/
theorem bitsBE_word (w : Word) : bitsBE w = bitsBE (firstByte w) ++ bitsBE (secondByte w) := by
  simp [bitsBE, List.range_succ, firstByte, secondByte, BitVec.getLsbD_extractLsb']

/-- R145: a word's bits group to the word's two bytes. -/
theorem bytesOfBits_bitsBE (w : Word) : bytesOfBits (bitsBE w) = wordBytes w := by
  rw [bitsBE_word, bytesOfBits_append_of_full (length_bitsBE _), ← List.append_nil (bitsBE (secondByte w)),
    bytesOfBits_append_of_full (length_bitsBE _), accOfBits_bitsBE, accOfBits_bitsBE,
    bytesOfBits_of_lt (bits := []) (by decide), wordBytes]

/-- Settles O46: the text's bits are the word's, whose two bytes are the first word of the buffer. -/
theorem packedWordIsFetchedAsThatWord : Obligations.PackedWordIsFetchedAsThatWord := by
  intro text w hbits
  have hpack : pack text = wordBytes w := by
    rw [pack_eq_bytesOfBits, hbits]
    exact bytesOfBits_bitsBE w
  refine ⟨hpack, ?_⟩
  rw [hpack]
  refine (fetchAt_startRun (wordBytes w) 0).trans ?_
  simp [wordBytes, wordsOf]

end Sys2Proof.Machine
end
